-- ==== Sys2Proof/Word.lean ====
section
/-! DEFINITION. The block's units of data: the byte and the 9-bit quantity (spec 00_scope.md R7, 10_state.md R27, R28). -/

namespace Sys2Proof

/-- A byte: an unsigned integer 0..255 whose bit 7 is the most significant (R7). -/
abbrev Byte := BitVec 8

/-- The 9-bit quantities `need` (R28) and `TX_LEN` (R27). -/
abbrev Word9 := BitVec 9

end Sys2Proof
end

