-- ==== Sys2Proof/Config.lean ====
section
/-! DEFINITION. The configuration record `CFG` (00_scope.md R5, R6; 10_state.md R29) and the two configurations the
spec names (92_eei_decisions.md D23). It is data of the block instance: no command writes it. -/

namespace Sys2Proof

/-- `CFG` (R5). `ckFold` is the function `CK_FOLD` given as its table of 256 values, entry `x` being `CK_FOLD(x)`, so
that a configuration is plain data (log entry 1). -/
structure Config where
  /-- `START`, the one recognised start byte -/
  start : Byte
  /-- `CK_FOLD` as a table -/
  ckFold : Vector Byte 256
  /-- `TYPE_CONNECT` -/
  typeConnect : Byte
  /-- `TYPE_TEMP` -/
  typeTemp : Byte
  /-- `TYPE_STATUS` -/
  typeStatus : Byte
  /-- `TYPE_ACK` -/
  typeAck : Byte
  /-- `MIN_CONNECT` -/
  minConnect : Nat
  /-- `MIN_TEMP` -/
  minTemp : Nat
  /-- `MIN_STATUS` -/
  minStatus : Nat
  /-- `MIN_ACK` -/
  minAck : Nat
  /-- `MIN_UNKNOWN` -/
  minUnknown : Nat
  /-- `MAX_LEN` -/
  maxLen : Nat
  /-- `BUF_CAP` -/
  bufCap : Nat
  deriving DecidableEq, Repr

/-- `CK_FOLD(x)`: the table's entry `x`. -/
def Config.fold (c : Config) (x : Byte) : Byte := c.ckFold[x.toNat]'(x.isLt)

/-- R6 in its own words. -/
def Config.WellFormed (c : Config) : Prop :=
  Function.Bijective c.fold ∧
  [c.typeConnect, c.typeTemp, c.typeStatus, c.typeAck].Nodup ∧
  (c.minConnect ≤ c.maxLen ∧ c.minTemp ≤ c.maxLen ∧ c.minStatus ≤ c.maxLen ∧ c.minAck ≤ c.maxLen ∧
    c.minUnknown ≤ c.maxLen) ∧
  c.maxLen ≤ 255 ∧
  c.maxLen + 4 ≤ c.bufCap

/-- The set of the bytes a list holds, as the number whose bit `k` says whether byte `k` is among them. -/
def byteSet (l : List Byte) : Nat := l.foldl (fun m b => m ||| 1 <<< b.toNat) 0

/-- R6 as a check that evaluates quickly: the fold is a bijection exactly when every byte is among its values
(`Config.wf_iff` of Laws/Config.lean proves the check equal to `Config.WellFormed`). -/
def Config.wf (c : Config) : Bool :=
  byteSet c.ckFold.toList == 2 ^ 256 - 1 &&
  decide [c.typeConnect, c.typeTemp, c.typeStatus, c.typeAck].Nodup &&
  decide (c.minConnect ≤ c.maxLen ∧ c.minTemp ≤ c.maxLen ∧ c.minStatus ≤ c.maxLen ∧ c.minAck ≤ c.maxLen ∧
    c.minUnknown ≤ c.maxLen) &&
  decide (c.maxLen ≤ 255) &&
  decide (c.maxLen + 4 ≤ c.bufCap)

/-- The table of a function on bytes. -/
def foldTable (f : Byte → Byte) : Vector Byte 256 :=
  ⟨((List.range 256).map fun n => f (BitVec.ofNat 8 n)).toArray, by simp⟩

/-- `REFCFG` (D23): the spec's sample configuration with every decided value of R5 (identity fold, `MAX_LEN` 255,
`BUF_CAP` 512, the other minimums 0). Its start byte, type bytes and `MIN_STATUS` are placeholders, not a device's. -/
def Config.refcfg : Config where
  start := 0xFC
  ckFold := foldTable fun x => x
  typeConnect := 0x01
  typeTemp := 0x02
  typeStatus := 0x03
  typeAck := 0x04
  minConnect := 0
  minTemp := 0
  minStatus := 6
  minAck := 0
  minUnknown := 0
  maxLen := 255
  bufCap := 512

/-- `ALTCFG` (D23): as `REFCFG` with `CK_FOLD(x) = (0xFC - x) mod 256`, `MAX_LEN` 32 and `BUF_CAP` 36. -/
def Config.altcfg : Config :=
  { Config.refcfg with ckFold := foldTable (fun x => 0xFC - x), maxLen := 32, bufCap := 36 }

end Sys2Proof
end

