-- ==== Sys2Proof/Syntax.lean ====
section
/-! DEFINITION. The instructions: one constructor for each row of spec/opcode_table.json (five commands, five frame
kinds; 30_encoding.md R70), and the two forms in which they are encoded. -/

namespace Sys2Proof

/-- The kinds of a frame (30_encoding.md R79, 43_dispatch.md R160). -/
inductive Kind
  | unknown
  | connect
  | tempReport
  | statusReport
  | ack
  deriving DecidableEq, Repr

/-- One constructor for each row of the opcode table. A command is what the host issues (R86). A frame row stands for
one complete candidate frame on the wire (R71): its start byte and, but for `unknown`, its type byte are the
configuration's, its length byte is the number of its payload bytes `p`, and `ck` is its trailing checksum byte,
right or wrong: the frame's meaning checks it, as the parser does (R129). -/
inductive Instr
  /-- `NOP` (R101) -/
  | nop
  /-- `RESET` (R102) -/
  | reset
  /-- `PUSH b` (R103) -/
  | push (b : Byte)
  /-- `DECODE_NEXT` (R104) -/
  | decodeNext
  /-- `ENCODE t, p` (R170, R172) -/
  | encode (t : Byte) (p : List Byte)
  /-- a frame of kind `CONNECT` -/
  | connect (p : List Byte) (ck : Byte)
  /-- a frame of kind `TEMP_REPORT` -/
  | tempReport (p : List Byte) (ck : Byte)
  /-- a frame of kind `STATUS_REPORT` -/
  | statusReport (p : List Byte) (ck : Byte)
  /-- a frame of kind `ACK` -/
  | ack (p : List Byte) (ck : Byte)
  /-- a frame of kind `UNKNOWN`, with its type byte `t` (R161) -/
  | unknown (t : Byte) (p : List Byte) (ck : Byte)
  deriving DecidableEq, Repr

/-- A command as the host presents it: a 3-bit command code and the bytes of its operands (R70, R84, R86), written
`c/operands` in 95_test_vectors.md section 8. How the operands are carried is not specified (R86, log entry 3). -/
structure Transaction where
  /-- the command code (R84) -/
  code : BitVec 3
  /-- `PUSH`: the byte `b`. `ENCODE`: the type byte, then the payload bytes. Otherwise empty. -/
  operands : List Byte
  deriving DecidableEq, Repr

/-- Two things are encoded (30_encoding.md): commands at the command interface and frames on the wire. -/
inductive Encoding
  | command (t : Transaction)
  | frame (bytes : List Byte)
  deriving DecidableEq, Repr

end Sys2Proof
end

