-- ==== Sys2Proof/WellFormed.lean ====
section
/-! DEFINITION. Which instructions have an encoding under a configuration. -/

namespace Sys2Proof

/-- An instruction that can be written down as bits. Every command can, whatever its operands (R86, R170: `ENCODE`
takes a payload of any length). A frame's length field holds 0..`MAX_LEN` (opcode table, field `n`; R74, R85), and a
frame of kind `UNKNOWN` has a type byte that is none of the four constants (R79). That its checksum is right and its
payload long enough is not asked: such frames are illegal, not unencodable (R85), and their meaning rejects them. -/
def Instr.wf (c : Config) : Instr → Bool
  | .nop => true
  | .reset => true
  | .push _ => true
  | .decodeNext => true
  | .encode _ _ => true
  | .connect p _ => decide (p.length ≤ c.maxLen)
  | .tempReport p _ => decide (p.length ≤ c.maxLen)
  | .statusReport p _ => decide (p.length ≤ c.maxLen)
  | .ack p _ => decide (p.length ≤ c.maxLen)
  | .unknown t p _ =>
    decide (t ∉ [c.typeConnect, c.typeTemp, c.typeStatus, c.typeAck]) && decide (p.length ≤ c.maxLen)

end Sys2Proof
end

