-- ==== Sys2Proof/Decode.lean ====
section
/-! DEFINITION. Decoding, total on any bytes and rejecting by name, and the encoder written from the same tables
(30_encoding.md R70 to R86, 43_dispatch.md R160 to R162). -/

namespace Sys2Proof

/-! ## The dispatch table -/

/-- The type-byte map as data (R79; R160: an "explicit constant mapping", an unknown code being a lookup miss). -/
def typeTable (c : Config) : List (Byte × Kind) :=
  [(c.typeConnect, .connect), (c.typeTemp, .tempReport), (c.typeStatus, .statusReport), (c.typeAck, .ack)]

/-- `KIND(t)` (R160). -/
def kindOf (c : Config) (t : Byte) : Kind := ((typeTable c).lookup t).getD .unknown

/-- `MINLEN(k)` (R162). -/
def minLen (c : Config) : Kind → Nat
  | .connect => c.minConnect
  | .tempReport => c.minTemp
  | .statusReport => c.minStatus
  | .ack => c.minAck
  | .unknown => c.minUnknown

/-! ## Commands -/

/-- Why a presented command is none of the five. -/
inductive CommandError
  /-- command code 5, 6 or 7 (R84: reserved) -/
  | reservedCode (code : BitVec 3)
  /-- the operands are not those the command has (R86) -/
  | operandShape (code : BitVec 3)
  deriving DecidableEq, Repr

/-- The command a transaction stands for (R84, R86). -/
def decodeCommand (t : Transaction) : Except CommandError Instr :=
  match t.code.toNat, t.operands with
  | 0, [] => .ok .nop
  | 1, [] => .ok .reset
  | 2, [b] => .ok (.push b)
  | 3, [] => .ok .decodeNext
  | 4, ty :: p => .ok (.encode ty p)
  | 5, _ => .error (.reservedCode t.code)
  | 6, _ => .error (.reservedCode t.code)
  | 7, _ => .error (.reservedCode t.code)
  | _, _ => .error (.operandShape t.code)

/-! ## Frames -/

/-- The bytes of a frame in wire order: start, type, length, payload, checksum (R71, R51). -/
def frameBytes (c : Config) (t : Byte) (p : List Byte) (ck : Byte) : List Byte :=
  [c.start, t, BitVec.ofNat 8 p.length] ++ p ++ [ck]

/-- The row of the opcode table for a frame: dispatch on the type byte (R79, R160). -/
def frameInstr (c : Config) (t : Byte) (p : List Byte) (ck : Byte) : Instr :=
  match kindOf c t with
  | .connect => .connect p ck
  | .tempReport => .tempReport p ck
  | .statusReport => .statusReport p ck
  | .ack => .ack p ck
  | .unknown => .unknown t p ck

/-- Why a byte sequence does not begin with a whole frame. -/
inductive FrameError
  /-- there is no byte at the cursor (R122) -/
  | empty
  /-- the byte at the cursor is not `START` (R85 (a)) -/
  | notStart
  /-- the length byte is not there yet (R123) -/
  | headerIncomplete
  /-- the length byte is above `MAX_LEN` (R85 (b), R126) -/
  | lengthRange
  /-- the payload or the checksum byte is not there yet (R127) -/
  | bodyIncomplete
  /-- bytes follow the frame (only where exactly one frame is to be read) -/
  | trailingBytes
  deriving DecidableEq, Repr

/-- The frame a byte sequence begins with, and the bytes after it. The extent comes from the length byte alone (R77),
the kind from the type byte alone (R79). The checksum and the minimum length are the frame's meaning to check. -/
def decodeFrame (c : Config) (bytes : List Byte) : Except FrameError (Instr × List Byte) :=
  match bytes with
  | [] => .error .empty
  | b :: tail =>
    if b ≠ c.start then .error .notStart
    else match tail with
      | t :: n :: rest =>
        if c.maxLen < n.toNat then .error .lengthRange
        else match rest.drop n.toNat with
          | ck :: after => .ok (frameInstr c t (rest.take n.toNat) ck, after)
          | [] => .error .bodyIncomplete
      | _ => .error .headerIncomplete

/-! ## Both, and the encoder -/

/-- Why an encoding is no instruction. -/
inductive DecodeError
  | command (e : CommandError)
  | frame (e : FrameError)
  deriving DecidableEq, Repr

/-- The instruction an encoding stands for. A frame encoding is exactly one frame. -/
def decode (c : Config) : Encoding → Except DecodeError Instr
  | .command t =>
    match decodeCommand t with
    | .ok i => .ok i
    | .error e => .error (.command e)
  | .frame bytes =>
    match decodeFrame c bytes with
    | .ok (i, []) => .ok i
    | .ok (_, _ :: _) => .error (.frame .trailingBytes)
    | .error e => .error (.frame e)

/-- The encoding of an instruction: command codes from R84, operands from R86, frames from R71 and the constants of
the configuration (R5). -/
def encode (c : Config) : Instr → Encoding
  | .nop => .command ⟨0, []⟩
  | .reset => .command ⟨1, []⟩
  | .push b => .command ⟨2, [b]⟩
  | .decodeNext => .command ⟨3, []⟩
  | .encode t p => .command ⟨4, t :: p⟩
  | .connect p ck => .frame (frameBytes c c.typeConnect p ck)
  | .tempReport p ck => .frame (frameBytes c c.typeTemp p ck)
  | .statusReport p ck => .frame (frameBytes c c.typeStatus p ck)
  | .ack p ck => .frame (frameBytes c c.typeAck p ck)
  | .unknown t p ck => .frame (frameBytes c t p ck)

/-! ## The opcode table's numbering of bits -/

/-- Byte `k` of a number, byte 0 being bits 7..0. -/
def byteOf (w k : Nat) : Byte := BitVec.ofNat 8 (w >>> (8 * k))

/-- A table word of `nbits` bits as a command. The code is bits 2..0 (the table's mask is 0x7); the operand bytes are
the bytes after the first, zero above `nbits`: one for `PUSH`, the type byte and what is left of the word for
`ENCODE` (log entry 4). -/
def tableTransaction (nbits w : Nat) : Transaction where
  code := BitVec.ofNat 3 w
  operands :=
    match w % 8 with
    | 2 => [byteOf w 1]
    | 4 => byteOf w 1 :: (List.range (nbits / 8 - 2)).map fun k => byteOf w (k + 2)
    | _ => []

/-- A table word of 24 bits as a frame: the table numbers the header as one word with byte 0 (the start byte) its most
significant byte; the payload and checksum bytes, to which the table gives no bits, are zeros (log entry 4). -/
def tableFrame (w : Nat) : List Byte :=
  [byteOf w 2, byteOf w 1, byteOf w 0] ++ List.replicate ((byteOf w 0).toNat + 1) 0

/-- The frame rows are the rows of 24 bits; the command rows have one byte. -/
def tableEncoding (nbits w : Nat) : Encoding :=
  if nbits = 24 then .frame (tableFrame w) else .command (tableTransaction nbits w)

/-- The instruction the decoder reads from a table word. A frame is read under `REFCFG`, the configuration of
`State.reset` and of the table's sample words (log entries 2 and 4). -/
def decodeTableWord (nbits w : Nat) : Option Instr :=
  match decode Config.refcfg (tableEncoding nbits w) with
  | .ok i => some i
  | .error _ => none

end Sys2Proof
end

