-- ==== Sys2Proof/Machine/State.lean ====
section
/-! DEFINITION. The whole state of one block instance (10_state.md R20 to R32), as plain data, the stops a step can
end in, and the state after reset. A register that "holds no value" (R30) is an absent option, as R30 asks. -/

namespace Sys2Proof.Machine

/-- `RES` (R23, R80): the result of the latest `DECODE_NEXT`. -/
inductive Res
  /-- none yet, the reset value -/
  | none
  | incomplete
  | frame
  | invalid
  deriving DecidableEq, Repr

/-- `REASON` (R23, R81). -/
inductive Reason
  /-- `RES` is not `INVALID` -/
  | none
  | badChecksum
  | shortPayload
  | lenRange
  deriving DecidableEq, Repr

/-- `TX_RES` (R27, R83): the result of the latest `ENCODE`. -/
inductive TxRes
  /-- none yet, the reset value -/
  | none
  | ok
  | errLen
  deriving DecidableEq, Repr

/-- The frame capture registers, which are written all together and hold values only together (R24, R30;
log entry 11). -/
structure Capture where
  /-- `F_START` -/
  fStart : Byte
  /-- `F_TYPE` -/
  fType : Byte
  /-- `F_LEN` -/
  fLen : Byte
  /-- `F_PAY[0], F_PAY[1], …`: the registers that hold a value, those from the list's length on hold none -/
  fPay : List Byte
  /-- `F_CK` -/
  fCk : Byte
  /-- `F_KIND` -/
  fKind : Kind
  deriving DecidableEq, Repr

/-- The encode result registers that hold values only while `TX_RES = OK` (R27, R30). -/
structure Transmit where
  /-- `TX_LEN`, 9 bits -/
  txLen : Word9
  /-- `TX[0], TX[1], …`: the registers that hold a value, those from the list's length on hold none -/
  tx : List Byte
  deriving DecidableEq, Repr

/-- The hidden scratch registers (R28), each without a value between commands (R30; log entry 12). -/
structure Scratch where
  /-- `type_r` -/
  typeR : Option Byte
  /-- `len_r` -/
  lenR : Option Byte
  /-- `need` -/
  need : Option Word9
  /-- `acc`, the receive checksum accumulator -/
  acc : Option Byte
  /-- `ck_r` -/
  ckR : Option Byte
  /-- `kind_r` -/
  kindR : Option Kind
  /-- `tacc`, the transmit checksum accumulator -/
  tacc : Option Byte
  deriving DecidableEq, Repr

/-- No scratch register holds a value (R28, R30). -/
def Scratch.empty : Scratch := ⟨none, none, none, none, none, none, none⟩

/-- What a command answers to the host (R86, R100: exactly one response). -/
inductive Response
  /-- `DONE` of `NOP` and `RESET` (R83) -/
  | done
  /-- `OK` of `PUSH` (R83, code 1) -/
  | pushed
  /-- `DROPPED` of `PUSH` (R83, code 0) -/
  | dropped
  /-- of `DECODE_NEXT`: `RES`, `REASON` and, for `FRAME`, the capture registers -/
  | decoded (res : Res) (reason : Reason) (frame : Option Capture)
  /-- of `ENCODE`: `TX_RES` and, for `OK`, `TX_LEN` and `TX` -/
  | encoded (res : TxRes) (frame : Option Transmit)
  deriving DecidableEq, Repr

/-- The receive buffer: the bytes at offsets 0, 1, … from the cursor (R21, R50). Offset `i` holds a byte exactly when
`i` is below the length; the list is its own canonical form (log entry 8). -/
abbrev Memory := List Byte

/-- The state of one block instance. The last two fields are the command interface, the model's own (log entries 3
and 5): the spec gives commands and responses, not how they are carried (R86). -/
structure State where
  /-- `CFG`, which nothing writes (R5, R29; log entry 1) -/
  cfg : Config
  /-- `buf`, the receive buffer (R21) -/
  buf : Memory
  /-- `RES` (R23) -/
  res : Res
  /-- `REASON` (R23) -/
  reason : Reason
  /-- `F_START`, `F_TYPE`, `F_LEN`, `F_PAY`, `F_CK`, `F_KIND` (R24), or none of them holds a value (R30) -/
  capture : Option Capture
  /-- `OVF`, the block's only flag (R25) -/
  ovf : Bool
  /-- `TX_RES` (R27) -/
  txRes : TxRes
  /-- `TX_LEN`, `TX` (R27), or none of them holds a value (R30) -/
  transmit : Option Transmit
  /-- the scratch registers (R28) -/
  scratch : Scratch
  /-- what the host presents at the command interface, the next instant first: at each instant no command, one
  command, or several at once (R57) -/
  port : List (List Transaction)
  /-- the response of the latest command -/
  response : Option Response
  deriving DecidableEq, Repr

/-- Why a step stops with a fault. -/
inductive Fault
  /-- Raised by `MemRead` for an offset outside `buf`, which R9 leaves undefined. No command does it
  (`Obligations.EveryCommandEndsInANextState`). Safe. -/
  | offsetOutsideBuffer
  deriving DecidableEq, Repr

/-- Why a step is refused: the spec gives the situation no meaning (R10). -/
inductive Refusal
  /-- Raised by exec for an instruction without a meaning in this model. No arm uses it. Safe. -/
  | notModelled (mnemonic : String)
  /-- Raised by step for command code 5, 6 or 7 (R84). Safe. -/
  | reservedCommand (code : BitVec 3)
  /-- Raised by step for a command whose operands are not those of R86 (log entry 3). Safe. -/
  | operandShape (code : BitVec 3)
  /-- Raised by step for two or more commands presented at once (R57). Safe. -/
  | simultaneousCommands
  /-- Raised by step and by the host's reads under an ill-formed configuration (R6, R10; log entry 6). Safe. -/
  | illFormedConfig
  /-- Raised by a read of a register that holds no value (R30): by the host's reads, and inside a command by a
  scratch register read before it is written, which no command does (R28). Safe. -/
  | noValue
  deriving DecidableEq, Repr

/-- How a step of this machine ends. -/
abbrev Out := Host.Outcome State Fault Refusal

/-- The state of a block built with configuration `c` right after power-on or `RESET` (R32, R210, R211), with nothing
presented at its command interface and no response given yet (log entry 5). -/
def State.resetWith (c : Config) : State where
  cfg := c
  buf := []
  res := .none
  reason := .none
  capture := none
  ovf := false
  txRes := .none
  transmit := none
  scratch := Scratch.empty
  port := []
  response := none

/-- The machine right after reset, as the instance that `REFCFG` configures (log entry 2). -/
def State.reset : State := State.resetWith Config.refcfg

end Sys2Proof.Machine
end

