-- ==== Sys2Proof/Machine/Ops.lean ====
section
/-! DEFINITION. The named operations over the receive buffer and the registers: the pseudocode primitives of
00_scope.md R9, and `raise`, the one operation that ends a command with a result other than success (R190). -/

namespace Sys2Proof.Machine

/-! ## The receive buffer -/

/-- The canonical form of the buffer of a block of capacity `cap`: R33 (a). That the offsets which hold a byte are
exactly those below the length, in rising order, is so by the type (`Memory.cells_keys` of Laws/Memory.lean). -/
def Memory.wf (cap : Nat) (m : Memory) : Bool := decide (m.length ≤ cap)

/-- The byte at offset `i` from the cursor; none where `i` is no valid offset (R50). -/
def Memory.read (m : Memory) (i : Nat) : Option Byte := m[i]?

/-- `MemRead(i, n)`, defined only when `i + n` is at most the length (R9). -/
def Memory.memRead (m : Memory) (i n : Nat) : Option (List Byte) :=
  if i + n ≤ m.length then some ((m.drop i).take n) else none

/-- `MemWrite(|buf|, 1, b)`, the only write: append (R9, R50). -/
def Memory.append (m : Memory) (b : Byte) : Memory := m ++ [b]

/-- `cursor <- cursor + n`: the first `n` bytes are consumed (R9, R21). -/
def Memory.advance (m : Memory) (n : Nat) : Memory := m.drop n

/-- The scan (R121): while the first byte is not `START`, it is consumed. -/
def Memory.scan (start : Byte) : Memory → Memory
  | [] => []
  | b :: rest => if b = start then b :: rest else Memory.scan start rest

/-- The buffer as pairs of an offset and the byte there. -/
def Memory.cells (m : Memory) : List Host.Cell := m.zipIdx.map fun x => (x.2, x.1)

/-! ## Reads inside a command -/

/-- Go on with the byte at offset `i` of `view`, a fault where there is none (R9: a rule never reads there). -/
def withByte (view : Memory) (i : Nat) (k : Byte → Out) : Out :=
  match view.read i with
  | some b => k b
  | none => .fault .offsetOutsideBuffer

/-- Go on with `MemRead(i, n)` of `view`, a fault where that is undefined. -/
def withBytes (view : Memory) (i n : Nat) (k : List Byte → Out) : Out :=
  match view.memRead i n with
  | some bs => k bs
  | none => .fault .offsetOutsideBuffer

/-- Go on with a register's value, refused where it holds none (R30). -/
def withReg {α : Type} (r : Option α) (k : α → Out) : Out :=
  match r with
  | some v => k v
  | none => .refused .noValue

/-! ## Register and cursor writes -/

/-- `cursor <- cursor + n`. -/
def State.advance (n : Nat) (s : State) : State := { s with buf := s.buf.advance n }

/-- `OVF <- 1` (R25). -/
def State.setOvf (s : State) : State := { s with ovf := true }

/-- A command gives its response (R100). -/
def State.respond (r : Response) (s : State) : State := { s with response := some r }

/-- The scratch registers of the parser hold no value any more (R28); `tacc` is the encoder's. -/
def Scratch.endDecode (x : Scratch) : Scratch := { Scratch.empty with tacc := x.tacc }

/-- The scratch register of the encoder holds no value any more (R28). -/
def State.endEncode (s : State) : State := { s with scratch := { s.scratch with tacc := none } }

/-- The end of `DECODE_NEXT`: `RES`, `REASON` and the capture registers are written together and are the response
(R86, R104). -/
def State.decoded (res : Res) (reason : Reason) (f : Option Capture) (s : State) : State :=
  { s with res := res, reason := reason, capture := f, scratch := s.scratch.endDecode }.respond
    (.decoded res reason f)

/-- The end of `ENCODE`: `TX_RES`, `TX_LEN` and `TX` are written together and are the response (R86, R172). -/
def State.encoded (res : TxRes) (f : Option Transmit) (s : State) : State :=
  { s with txRes := res, transmit := f }.respond (.encoded res f)

/-! ## Results that are not success -/

/-- The causes of such a result: the complete list of R180. -/
inductive Cause
  /-- R181 -/
  | incomplete
  /-- R182, R183, R184: `INVALID` with its `REASON` -/
  | invalid (reason : Reason)
  /-- R186 -/
  | dropped
  /-- R187 -/
  | errLen
  deriving DecidableEq, Repr

/-- `raise <Cause>` (R9): what stands in the block of an exception. Nothing is saved and control goes nowhere (R190);
the command ends with the result its cause names, and that is the whole effect. `INVALID` costs exactly the start byte
of the rejected candidate (R131). The host goes on by its next command: there is no return instruction (R191). -/
def State.raise (c : Cause) (s : State) : State :=
  match c with
  | .incomplete => s.decoded .incomplete .none none
  | .invalid reason => (s.advance 1).decoded .invalid reason none
  | .dropped => s.setOvf.respond .dropped
  | .errLen => s.encoded .errLen none

end Sys2Proof.Machine
end

