-- ==== Sys2Proof/Machine/Flags.lean ====
section
/-! DEFINITION. The checksum unit (42_checksum.md R140 to R146) and the numeric codes of the result registers
(30_encoding.md R80 to R83). The block's one flag, `OVF`, is written by `State.setOvf` and by reset alone (R25). -/

namespace Sys2Proof.Machine

/-! ## The checksum unit -/

/-- One step of the adder: the sum modulo 256, the carry out of bit 7 discarded (R141). -/
def addByte (acc b : Byte) : Byte := acc + b

/-- The accumulator after the bytes of `s`, from the value `acc` (R141). -/
def accumulate (acc : Byte) (s : List Byte) : Byte := s.foldl addByte acc

/-- `sum8(s)` (R140): the accumulator from 0. -/
def sum8 (s : List Byte) : Byte := accumulate 0 s

/-- `CK(s)` (R142). -/
def checksum (c : Config) (s : List Byte) : Byte := c.fold (sum8 s)

/-- `VALID(s, c)` (R144): all eight bits equal. -/
def valid (c : Config) (s : List Byte) (ck : Byte) : Bool := decide (checksum c s = ck)

/-! ## Codes -/

/-- R80. -/
def Res.code : Res → BitVec 2
  | .none => 0
  | .incomplete => 1
  | .frame => 2
  | .invalid => 3

/-- R81. -/
def Reason.code : Reason → BitVec 2
  | .none => 0
  | .badChecksum => 1
  | .shortPayload => 2
  | .lenRange => 3

/-- `F_KIND` codes (R82). -/
def kindCode : Kind → BitVec 3
  | .unknown => 0
  | .connect => 1
  | .tempReport => 2
  | .statusReport => 3
  | .ack => 4

/-- R83. -/
def TxRes.code : TxRes → BitVec 2
  | .none => 0
  | .ok => 1
  | .errLen => 2

/-- The response bit of `PUSH` (R83): 1 for `OK`, 0 for `DROPPED`, none for a response of another command. -/
def Response.pushBit : Response → Option (BitVec 1)
  | .pushed => some 1
  | .dropped => some 0
  | .done => none
  | .decoded _ _ _ => none
  | .encoded _ _ => none

end Sys2Proof.Machine
end

