-- ==== Sys2Proof/Machine/Operands.lean ====
section
/-! DEFINITION. What the host can read between commands: the status view (10_state.md R26), the capture and transmit
registers (R24, R27), and the refusal of a read of a register that holds no value (R30). A read changes nothing, so it
is a function of the state and no step (log entry 13). -/

namespace Sys2Proof.Machine

/-- The registers by their names of 10_state.md. `buf` is none of them: the host cannot read it (R50). -/
inductive Reg
  | count
  | ovf
  | res
  | reason
  | fStart
  | fType
  | fLen
  | fPay (i : Nat)
  | fCk
  | fKind
  | txRes
  | txLen
  | tx (i : Nat)
  | typeR
  | lenR
  | need
  | acc
  | ckR
  | kindR
  | tacc
  deriving DecidableEq, Repr

/-- `COUNT`, the number of bytes in `buf` (R26). -/
def State.count (s : State) : Nat := s.buf.length

/-- The width of `COUNT` in bits, `ceil(log2(BUF_CAP + 1))` (R26). -/
def countWidth (c : Config) : Nat := Nat.clog 2 (c.bufCap + 1)

/-- `COUNT` as its output of that width. -/
def State.countBits (s : State) : BitVec (countWidth s.cfg) := BitVec.ofNat _ s.count

/-- The value a register holds, as the number its code stands for; none where it holds no value (R26, R30). The
scratch registers are hidden: between commands they hold no value and the host cannot read them (R28). -/
def State.regValue (s : State) : Reg → Option Nat
  | .count => some s.count
  | .ovf => some s.ovf.toNat
  | .res => some s.res.code.toNat
  | .reason => some s.reason.code.toNat
  | .fStart => s.capture.map fun f => f.fStart.toNat
  | .fType => s.capture.map fun f => f.fType.toNat
  | .fLen => s.capture.map fun f => f.fLen.toNat
  | .fPay i => s.capture.bind fun f => f.fPay[i]?.map BitVec.toNat
  | .fCk => s.capture.map fun f => f.fCk.toNat
  | .fKind => s.capture.map fun f => (kindCode f.fKind).toNat
  | .txRes => some s.txRes.code.toNat
  | .txLen => s.transmit.map fun f => f.txLen.toNat
  | .tx i => s.transmit.bind fun f => f.tx[i]?.map BitVec.toNat
  | .typeR => s.scratch.typeR.map BitVec.toNat
  | .lenR => s.scratch.lenR.map BitVec.toNat
  | .need => s.scratch.need.map BitVec.toNat
  | .acc => s.scratch.acc.map BitVec.toNat
  | .ckR => s.scratch.ckR.map BitVec.toNat
  | .kindR => s.scratch.kindR.map fun k => (kindCode k).toNat
  | .tacc => s.scratch.tacc.map BitVec.toNat

/-- The host's read of a register between commands: refused under an ill-formed configuration, to which the block gives
no meaning at all (R6, R10), and where the register holds no value (R10, R30). -/
def State.hostRead (s : State) (r : Reg) : Except Refusal Nat :=
  if s.cfg.wf then
    match s.regValue r with
    | some v => .ok v
    | none => .error .noValue
  else .error .illFormedConfig

end Sys2Proof.Machine
end

