-- ==== Sys2Proof/Machine/Commands.lean ====
section
/-! DEFINITION. The meanings of `NOP`, `RESET` and `PUSH` (40_commands.md R101 to R103). -/

namespace Sys2Proof.Machine

/-- `NOP` (R101): writes no state and answers `DONE`. -/
def execNop (s : State) : Out := .next (s.respond .done)

/-- `RESET` (R102): every piece of state takes its reset value (R32), `CFG` is untouched. What the host presents next
is the host's, not the block's, and stays (log entry 5). -/
def execReset (s : State) : Out :=
  .next ({ State.resetWith s.cfg with port := s.port }.respond .done)

/-- `PUSH b` (R103): appended if there is room, dropped otherwise. -/
def execPush (b : Byte) (s : State) : Out :=
  if s.buf.length < s.cfg.bufCap then
    .next ({ s with buf := s.buf.append b }.respond .pushed)
  else
    .next (s.raise .dropped)

end Sys2Proof.Machine
end

