-- ==== Sys2Proof/Machine/Parser.lean ====
section
/-! DEFINITION. The frame parser (41_parser.md R120 to R131, 43_dispatch.md R160 to R163) and the meaning of
`DECODE_NEXT` (40_commands.md R104). One definition for each phase, in the reverse of their order; each reads the
bytes it parses from `view`, offset 0 being the cursor, and writes and reads the scratch registers as the pseudocode
does. -/

namespace Sys2Proof.Machine

/-- ACCEPT (R130): the capture registers are written all together and the whole frame is consumed. -/
def accept (view : Memory) (s : State) : Out :=
  withByte view 0 fun start =>
  withReg s.scratch.typeR fun t =>
  withReg s.scratch.lenR fun len =>
  withReg s.scratch.need fun need =>
  withReg s.scratch.ckR fun ck =>
  withReg s.scratch.kindR fun kind =>
  withBytes view 3 len.toNat fun pay =>
    .next ((s.advance need.toNat).decoded .frame .none
      (some { fStart := start, fType := t, fLen := len, fPay := pay, fCk := ck, fKind := kind }))

/-- DISPATCH (R160, R163): the kind of the type byte, and the minimum payload length of that kind. -/
def dispatch (view : Memory) (s : State) : Out :=
  withReg s.scratch.typeR fun t =>
    let s := { s with scratch := { s.scratch with kindR := some (kindOf s.cfg t) } }
    withReg s.scratch.lenR fun len =>
    withReg s.scratch.kindR fun kind =>
      if len.toNat < minLen s.cfg kind then .next (s.raise (.invalid .shortPayload)) else accept view s

/-- VALIDATE (R129, R145): the sum of all bytes before the checksum byte, folded, against the checksum byte. -/
def validate (view : Memory) (s : State) : Out :=
  withReg s.scratch.need fun need =>
  withBytes view 0 (need.toNat - 1) fun summed =>
    let s := { s with scratch := { s.scratch with acc := some (sum8 summed) } }
    withReg s.scratch.acc fun acc =>
    withReg s.scratch.ckR fun ck =>
      if s.cfg.fold acc ≠ ck then .next (s.raise (.invalid .badChecksum)) else dispatch view s

/-- CAPTURE (R128): the received checksum byte. -/
def captureCk (view : Memory) (s : State) : Out :=
  withReg s.scratch.need fun need =>
  withByte view (need.toNat - 1) fun ck =>
    validate view { s with scratch := { s.scratch with ckR := some ck } }

/-- Body not yet complete (R127), or on to CAPTURE. -/
def awaitBody (view : Memory) (s : State) : Out :=
  withReg s.scratch.need fun need =>
    if view.length < need.toNat then .next (s.raise .incomplete) else captureCk view s

/-- LENGTH DISPATCH (R125), in 9 bits so that it cannot wrap (R151), and the length's range (R126). -/
def lengthDispatch (view : Memory) (s : State) : Out :=
  withReg s.scratch.lenR fun len =>
    let s := { s with scratch := { s.scratch with need := some (len.setWidth 9 + 4) } }
    if s.cfg.maxLen < len.toNat then .next (s.raise (.invalid .lenRange)) else awaitBody view s

/-- LATCH (R124): the type byte and the length byte. -/
def latch (view : Memory) (s : State) : Out :=
  withByte view 1 fun t =>
  withByte view 2 fun len =>
    lengthDispatch view { s with scratch := { s.scratch with typeR := some t, lenR := some len } }

/-- The parser after its scan (R120): no start byte (R122), header not yet complete (R123), or on to LATCH. -/
def parse (view : Memory) (s : State) : Out :=
  if view.length = 0 then .next (s.raise .incomplete)
  else if view.length < 3 then .next (s.raise .incomplete)
  else latch view s

/-- On entry of `DECODE_NEXT` the capture registers hold no value (R104). `RES` and `REASON`, of which the same is
said, are written by every end of the command (log entry 7). -/
def State.enterDecode (s : State) : State := { s with capture := none }

/-- SCAN (R121). -/
def State.scan (s : State) : State := { s with buf := s.buf.scan s.cfg.start }

/-- `DECODE_NEXT` (R104): the parser, once, from the cursor. -/
def execDecodeNext (s : State) : Out :=
  let s := s.enterDecode.scan
  parse s.buf s

end Sys2Proof.Machine
end

