-- ==== Sys2Proof/Machine/Frames.lean ====
section
/-! DEFINITION. The meanings of the frame rows of the opcode table: what the parser does with the candidate frame at
the cursor when its bytes are those of the row (30_encoding.md R70, R79; 41_parser.md R124 to R131). `DECODE_NEXT` does
exactly this when its scan stops at such a frame (`Obligations.DecodeNextRunsTheFrameAtTheCursor`; log entry 9). -/

namespace Sys2Proof.Machine

/-- The parser's phases after the scan, on the bytes of one frame. -/
def runFrame (t : Byte) (p : List Byte) (ck : Byte) (s : State) : Out :=
  parse (frameBytes s.cfg t p ck) s.enterDecode

/-- A `CONNECT` frame. -/
def execConnect (p : List Byte) (ck : Byte) (s : State) : Out := runFrame s.cfg.typeConnect p ck s

/-- A `TEMP_REPORT` frame. -/
def execTempReport (p : List Byte) (ck : Byte) (s : State) : Out := runFrame s.cfg.typeTemp p ck s

/-- A `STATUS_REPORT` frame. -/
def execStatusReport (p : List Byte) (ck : Byte) (s : State) : Out := runFrame s.cfg.typeStatus p ck s

/-- An `ACK` frame. -/
def execAck (p : List Byte) (ck : Byte) (s : State) : Out := runFrame s.cfg.typeAck p ck s

/-- A frame of any other type byte: never an error for that (R161). -/
def execUnknown (t : Byte) (p : List Byte) (ck : Byte) (s : State) : Out := runFrame t p ck s

end Sys2Proof.Machine
end

