-- ==== Sys2Proof/Machine/Encoder.lean ====
section
/-! DEFINITION. The frame encoder: the meaning of `ENCODE` (44_encode.md R170 to R173). -/

namespace Sys2Proof.Machine

/-- `ENCODE t, p`: the length check (R171), then the frame, its checksum byte being the fold of the accumulator
`tacc` that has summed the bytes before it (R172, R146). Nothing of the receive side is read or written (R27), and
neither the kind nor the minimum length is looked at (R173). -/
def execEncode (t : Byte) (p : List Byte) (s : State) : Out :=
  if s.cfg.maxLen < p.length then .next (s.raise .errLen)
  else
    let n : Byte := BitVec.ofNat 8 p.length
    let s := { s with scratch := { s.scratch with tacc := some (accumulate (s.cfg.start + t + n) p) } }
    withReg s.scratch.tacc fun tacc =>
      .next (s.endEncode.encoded .ok (some
        { txLen := BitVec.ofNat 9 p.length + 4, tx := frameBytes s.cfg t p (s.cfg.fold tacc) }))

end Sys2Proof.Machine
end

