-- ==== Sys2Proof/Machine/Dispatch.lean ====
section
/-! DEFINITION. One arm for each row of the opcode table. -/

namespace Sys2Proof.Machine

def exec (i : Instr) (s : State) : Host.Outcome State Fault Refusal :=
  match i with
  | .nop => Sys2Proof.Machine.execNop s
  | .reset => Sys2Proof.Machine.execReset s
  | .push b => Sys2Proof.Machine.execPush b s
  | .decodeNext => Sys2Proof.Machine.execDecodeNext s
  | .encode t p => Sys2Proof.Machine.execEncode t p s
  | .connect p ck => Sys2Proof.Machine.execConnect p ck s
  | .tempReport p ck => Sys2Proof.Machine.execTempReport p ck s
  | .statusReport p ck => Sys2Proof.Machine.execStatusReport p ck s
  | .ack p ck => Sys2Proof.Machine.execAck p ck s
  | .unknown t p ck => Sys2Proof.Machine.execUnknown t p ck s

end Sys2Proof.Machine
end

