-- ==== Sys2Proof/Machine/Interface.lean ====
section
/-! DEFINITION. The command interface: taking the next command the host presents, and placing one there. -/

namespace Sys2Proof.Machine

/-- What stands at the command interface at this instant. -/
inductive Presented
  /-- nothing: the block is idle (R199) -/
  | idle
  /-- one command -/
  | command (i : Instr)
  /-- something the spec gives no meaning -/
  | noMeaning (r : Refusal)
  deriving DecidableEq, Repr

/-- The refusal for a transaction that is no command (R84, R86). -/
def refusalOf : CommandError → Refusal
  | .reservedCode c => .reservedCommand c
  | .operandShape c => .operandShape c

/-- One command at a time has a meaning; several at once have none (R57, R229). -/
def presented (slot : List Transaction) : Presented :=
  match slot with
  | [] => .idle
  | [t] =>
    match decodeCommand t with
    | .ok i => .command i
    | .error e => .noMeaning (refusalOf e)
  | _ :: _ :: _ => .noMeaning .simultaneousCommands

/-- What is presented now: nothing, when the host has nothing more to present. -/
def State.nowPresented (s : State) : Presented :=
  match s.port with
  | [] => .idle
  | slot :: _ => presented slot

/-- The instant has passed. -/
def State.taken (s : State) : State := { s with port := s.port.tail }

/-- `s` with one more command for the host to present, before anything else. -/
def State.present (t : Transaction) (s : State) : State := { s with port := [t] :: s.port }

/-- `s` with the instruction of a table word where the next step takes it. A command is presented next. A frame is
put at the cursor, over what stands there, and `DECODE_NEXT`, the command that runs the frame at the cursor, is
presented next. -/
def State.place (e : Encoding) (s : State) : State :=
  match e with
  | .command t => s.present t
  | .frame bytes => { s with buf := bytes ++ s.buf.drop bytes.length }.present ⟨3, []⟩

end Sys2Proof.Machine
end

