-- ==== Sys2Proof/Machine/Step.lean ====
section
/-! DEFINITION. One step: the block takes what the host presents at one instant and runs it to its end (40_commands.md
R100, 20_memory.md R57). -/

namespace Sys2Proof.Machine

/-- One step. Under an ill-formed configuration nothing has a meaning (R6, R10; log entry 6). With nothing presented nothing
changes (R11, R100). -/
def step (s : State) : Host.Outcome State Fault Refusal :=
  if s.cfg.wf then
    match s.nowPresented with
    | .idle => .next s.taken
    | .command i => exec i s.taken
    | .noMeaning r => .refused r
  else .refused .illFormedConfig

/-- `s` with a table word's instruction where step takes its next one (log entries 4 and 5). -/
def State.withFetchWord (s : State) (nbits w : Nat) : State := s.place (tableEncoding nbits w)

end Sys2Proof.Machine
end

