-- ==== Sys2Proof/Machine/Ring.lean ====
section
/-! DEFINITION. The ring realisation of the receive buffer (10_state.md R36, R32), which the spec gives as one
conforming way to hold `buf`. It is no part of `State`: the byte sequence is normative, and the ring is here so that
its agreement with the sequence can be stated. `cap` is `BUF_CAP`. -/

namespace Sys2Proof.Machine

/-- The ring: a byte memory, a read pointer and a count (R36). -/
structure Ring where
  mem : List Byte
  rp : Nat
  cnt : Nat
  deriving DecidableEq, Repr

/-- The ranges R36 gives. -/
def Ring.wf (cap : Nat) (r : Ring) : Bool :=
  decide (r.mem.length = cap) && decide (r.rp < cap) && decide (r.cnt ≤ cap)

/-- Where the byte at offset `i` from the cursor is held (R36). -/
def Ring.slot (cap : Nat) (r : Ring) (i : Nat) : Nat := (r.rp + i) % cap

/-- The abstraction: `buf[i] = mem[(rp + i) mod BUF_CAP]` for `i` below `cnt` (R36). -/
def Ring.toBuf (cap : Nat) (r : Ring) : Memory := (List.range r.cnt).map fun i => r.mem.getD (r.slot cap i) 0

/-- `PUSH b` on the ring (R36); a full ring is left alone (R103). -/
def Ring.push (cap : Nat) (b : Byte) (r : Ring) : Ring :=
  if r.cnt < cap then { r with mem := r.mem.set (r.slot cap r.cnt) b, cnt := r.cnt + 1 } else r

/-- A cursor advance by `n` on the ring (R36). -/
def Ring.advance (cap n : Nat) (r : Ring) : Ring := { r with rp := (r.rp + n) % cap, cnt := r.cnt - n }

/-- `RESET` on the ring (R36): the memory's content is unspecified and stays what it was (R32). -/
def Ring.reset (r : Ring) : Ring := { r with rp := 0, cnt := 0 }

/-- The scan on the ring: a cursor advance by one while the byte at the cursor is not `START` (R121), at most `fuel`
times. -/
def Ring.scan (cap : Nat) (start : Byte) : Nat → Ring → Ring
  | 0, r => r
  | fuel + 1, r =>
    if r.cnt = 0 then r
    else if r.mem.getD (r.slot cap 0) 0 = start then r
    else Ring.scan cap start fuel (r.advance cap 1)

end Sys2Proof.Machine
end

