-- ==== Sys2Proof/Machine/Script.lean ====
section
/-! DEFINITION. Sequences of commands as 30_encoding.md R87 to R89 write them, `RUN` (41_parser.md R132), and the
parser `P'` of R135 that puts scanned bytes back. They are what the laws of the parser are said about; the machine does
not use them. -/

namespace Sys2Proof.Machine

/-- Run commands one after another, `ex` giving the meaning of each; the responses in order and the last state. None
if one of them stops. -/
def runScript (ex : Instr → State → Out) : List Instr → State → Option (List Response × State)
  | [], s => some ([], s)
  | i :: rest, s =>
    match ex i s with
    | .next t => (runScript ex rest t).map fun r => (t.response.toList ++ r.1, r.2)
    | .fault _ => none
    | .refused _ => none

/-- `FEED [b0 b1 …]` (R88). -/
def feed (bytes : List Byte) : List Instr := bytes.map .push

/-- `DRAIN` (R88): `DECODE_NEXT` until it returns `INCOMPLETE`, at most `fuel` times. None if that is not enough. -/
def drain : Nat → State → Option (List Response × State)
  | 0, _ => none
  | fuel + 1, s =>
    match exec .decodeNext s with
    | .next t =>
      if t.res = .incomplete then some (t.response.toList, t)
      else (drain fuel t).map fun r => (t.response.toList ++ r.1, r.2)
    | .fault _ => none
    | .refused _ => none

/-- `RUN(s)` (R132): the results of `DRAIN` on a block whose `buf` is `bytes`, less the final `INCOMPLETE`, and the
residue. R134 bounds the commands by one more than the number of bytes. -/
def runOf (c : Config) (bytes : List Byte) : Option (List Response × Memory) :=
  (drain (bytes.length + 1) { State.resetWith c with buf := bytes }).map fun r => (r.1.dropLast, r.2.buf)

/-- `FR(t; p)` (R89). -/
def frameLiteral (c : Config) (t : Byte) (p : List Byte) : List Byte :=
  frameBytes c t p (checksum c ([c.start, t, BitVec.ofNat 8 p.length] ++ p))

/-- The results of `DECODE_NEXT` other than `INCOMPLETE` among some responses, in order (R138). -/
def results (rs : List Response) : List Response :=
  rs.filter fun r =>
    match r with
    | .decoded .frame _ _ => true
    | .decoded .invalid _ _ => true
    | .decoded .none _ _ => false
    | .decoded .incomplete _ _ => false
    | .done => false
    | .pushed => false
    | .dropped => false
    | .encoded _ _ => false

/-- The bytes a script pushes, in order. -/
def pushedBytes (script : List Instr) : List Byte :=
  script.filterMap fun i =>
    match i with
    | .push b => some b
    | .nop => none
    | .reset => none
    | .decodeNext => none
    | .encode _ _ => none
    | .connect _ _ => none
    | .tempReport _ _ => none
    | .statusReport _ _ => none
    | .ack _ _ => none
    | .unknown _ _ _ => none

/-- A script of `PUSH` and `DECODE_NEXT` only. -/
def isReception (script : List Instr) : Bool :=
  script.all fun i =>
    match i with
    | .push _ => true
    | .decodeNext => true
    | .nop => false
    | .reset => false
    | .encode _ _ => false
    | .connect _ _ => false
    | .tempReport _ _ => false
    | .statusReport _ _ => false
    | .ack _ _ => false
    | .unknown _ _ _ => false

/-- How many bytes the scan consumes of `m` (R22 (b), R121). -/
def Memory.scanned (start : Byte) (m : Memory) : Nat := m.length - (Memory.scan start m).length

/-- How far beyond its scan a `DECODE_NEXT` that ended in `t` has moved the cursor: not at all for `INCOMPLETE`, by the
start byte for `INVALID`, by `F_LEN + 4` for `FRAME` (R22 (c) to (e)). -/
def State.endAdvance (t : State) : Nat :=
  match t.res, t.capture with
  | .none, _ => 0
  | .incomplete, _ => 0
  | .invalid, _ => 1
  | .frame, some f => f.fLen.toNat + 4
  | .frame, none => 0

/-- The bytes a command that led from `s` to `t` has consumed: those its scan passed over and those its result takes,
for `DECODE_NEXT`; none for another command (R22). `RESET`, which empties the buffer, consumes nothing. -/
def consumedBy (i : Instr) (s t : State) : List Byte :=
  if i = .decodeNext then s.buf.take (Memory.scanned s.cfg.start s.buf + t.endAdvance) else []

/-- The bytes the commands of a script consume, run from `s`, in order. -/
def consumedAlong : List Instr → State → List Byte
  | [], _ => []
  | i :: rest, s =>
    match exec i s with
    | .next t => consumedBy i s t ++ consumedAlong rest t
    | .fault _ => []
    | .refused _ => []

/-- The byte a command brings in: that of a `PUSH` that finds room (R103). -/
def keptBy (i : Instr) (s : State) : List Byte := if s.buf.length < s.cfg.bufCap then pushedBytes [i] else []

/-- The bytes a script pushes while there is room, run from `s`, in order: all but those pushed while `buf` was full
(R58). -/
def keptAlong : List Instr → State → List Byte
  | [], _ => []
  | i :: rest, s =>
    match exec i s with
    | .next t => keptBy i s ++ keptAlong rest t
    | .fault _ => []
    | .refused _ => []

/-- `DECODE_NEXT` of the parser `P'` (R135): on `INCOMPLETE` the bytes the scan consumed are put back. -/
def execDecodePutBack (s : State) : Out :=
  match execDecodeNext s with
  | .next t => .next (if t.res = .incomplete then { t with buf := s.buf } else t)
  | .fault f => .fault f
  | .refused r => .refused r

/-- The block with the parser `P'`. -/
def execPutBack (i : Instr) (s : State) : Out :=
  if i = .decodeNext then execDecodePutBack s else exec i s

end Sys2Proof.Machine
end

