-- ==== Sys2Proof/Safety.lean ====
section
/-! DEFINITION. The terms the claims use: what the capture and transmit registers guarantee, the invariant of
10_state.md R33, a frame that the parser accepts, and when a parsed candidate is sure to be rejected (41_parser.md
R137). -/

namespace Sys2Proof.Machine

/-- What a captured frame is known to be (R33 (c), R164, R24). -/
def Capture.Sound (c : Config) (f : Capture) : Prop :=
  f.fStart = c.start ∧
  f.fLen.toNat ≤ c.maxLen ∧
  f.fPay.length = f.fLen.toNat ∧
  f.fKind = kindOf c f.fType ∧
  minLen c f.fKind ≤ f.fLen.toNat ∧
  f.fCk = checksum c ([f.fStart, f.fType, f.fLen] ++ f.fPay)

/-- What an encoded frame is known to be (R33 (d), R27). -/
def Transmit.Sound (c : Config) (f : Transmit) : Prop :=
  4 ≤ f.txLen.toNat ∧
  f.txLen.toNat ≤ c.maxLen + 4 ∧
  f.tx.length = f.txLen.toNat ∧
  f.tx[0]? = some c.start ∧
  f.tx[2]?.map BitVec.toNat = some (f.txLen.toNat - 4) ∧
  f.tx[f.txLen.toNat - 1]? = some (checksum c (f.tx.take (f.txLen.toNat - 1)))

/-- The invariant (R33), with R24, R27 and R30 on which registers hold values, under a well-formed configuration. -/
structure State.Inv (s : State) : Prop where
  /-- R6 -/
  cfg : s.cfg.wf = true
  /-- R33 (a) -/
  room : Memory.wf s.cfg.bufCap s.buf = true
  /-- R33 (b) -/
  reason : s.reason ≠ .none ↔ s.res = .invalid
  /-- R24, R30: the capture registers hold values exactly while `RES = FRAME` -/
  captured : s.capture.isSome = true ↔ s.res = .frame
  /-- R33 (c) -/
  frame : ∀ f, s.capture = some f → f.Sound s.cfg
  /-- R27, R30: the transmit registers hold values exactly while `TX_RES = OK` -/
  encoded : s.transmit.isSome = true ↔ s.txRes = .ok
  /-- R33 (d) -/
  sent : ∀ f, s.transmit = some f → f.Sound s.cfg
  /-- R28, R30 -/
  idle : s.scratch = Scratch.empty

/-- The bytes that the checksum byte of a frame covers (R143): start, type, length, payload. -/
def summedBytes (c : Config) (t : Byte) (p : List Byte) : List Byte := [c.start, t, BitVec.ofNat 8 p.length] ++ p

/-- A frame of kind `k` with type byte `t`, payload `p` and checksum byte `ck` passes every test of the parser under
`c` (R126, R129, R163). -/
def Acceptable (c : Config) (k : Kind) (t : Byte) (p : List Byte) (ck : Byte) : Prop :=
  p.length ≤ c.maxLen ∧ minLen c k ≤ p.length ∧ ck = checksum c (summedBytes c t p)

/-- The capture registers' content after such a frame is accepted (R130). -/
def captureOf (c : Config) (k : Kind) (t : Byte) (p : List Byte) (ck : Byte) : Capture where
  fStart := c.start
  fType := t
  fLen := BitVec.ofNat 8 p.length
  fPay := p
  fCk := ck
  fKind := k

/-- The response `FRAME` with its capture registers. -/
def frameResponse (f : Capture) : Response := .decoded .frame .none (some f)

/-- `s` after a `DECODE_NEXT` with this result that left `buf` in the receive buffer: `RES`, `REASON`, the capture
registers and the response are written, the parser's scratch registers hold no value, the rest is as it was (R35). -/
def State.withResult (s : State) (buf : Memory) (res : Res) (reason : Reason) (f : Option Capture) : State :=
  { s with
    buf := buf
    res := res
    reason := reason
    capture := f
    scratch := { Scratch.empty with tacc := s.scratch.tacc }
    response := some (.decoded res reason f) }

/-- The fields of a frame row under `c`: kind, type byte, payload, checksum byte. None for a command. -/
def frameFields (c : Config) : Instr → Option (Kind × Byte × List Byte × Byte)
  | .nop => none
  | .reset => none
  | .push _ => none
  | .decodeNext => none
  | .encode _ _ => none
  | .connect p ck => some (.connect, c.typeConnect, p, ck)
  | .tempReport p ck => some (.tempReport, c.typeTemp, p, ck)
  | .statusReport p ck => some (.statusReport, c.typeStatus, p, ck)
  | .ack p ck => some (.ack, c.typeAck, p, ck)
  | .unknown t p ck => some (.unknown, t, p, ck)

/-- A response `FRAME`, whatever the frame. -/
def Response.isFrame : Response → Bool
  | .decoded .frame _ _ => true
  | .decoded .none _ _ => false
  | .decoded .incomplete _ _ => false
  | .decoded .invalid _ _ => false
  | .done => false
  | .pushed => false
  | .dropped => false
  | .encoded _ _ => false

/-- A response `INVALID`, whatever its reason. -/
def Response.isInvalid (r : Response) : Prop := ∃ reason, r = .decoded .invalid reason none

/-- The false start at offset `j` of a stream is rejectable (R137): its declared length is out of range, or its
candidate is wholly there and fails the checksum test or the minimum-length test. -/
def Rejectable (c : Config) (stream : List Byte) (j : Nat) : Prop :=
  ∃ t n : Byte, stream[j + 1]? = some t ∧ stream[j + 2]? = some n ∧
    (c.maxLen < n.toNat ∨
      ∃ ck : Byte, stream[j + n.toNat + 3]? = some ck ∧
        (valid c ((stream.drop j).take (n.toNat + 3)) ck = false ∨ n.toNat < minLen c (kindOf c t)))

/-- The number of false starts among the first `k` bytes of a stream: the `START`-valued bytes there (R137). -/
def falseStarts (c : Config) (stream : List Byte) (k : Nat) : Nat := (stream.take k).count c.start

end Sys2Proof.Machine
end

