-- ==== Sys2Proof/Certificates/Slice0/Obligations.lean ====
section
/-! DEFINITION. The statements for the provers. Each is about every configuration the block may be built with
(00_scope.md R5: a claim quantifies over every well-formed `CFG`), since `State.cfg` is a variable of the statement. Two
name the sample configuration `REFCFG` as well (log entry 2) and say so. -/

open Sys2Proof Sys2Proof.Machine

/-! ## Commands -/

/-- R101: command code 0 is `NOP`, and in any state `S`, `NOP` leaves `S` and answers `DONE`. -/
def Obligations.NopChangesNothing : Prop :=
  decodeCommand ⟨0, []⟩ = .ok .nop ∧
  ∀ s : State, exec .nop s = .next { s with response := some .done }

/-- R102, R211, R32: command code 1 is `RESET`; after it, whatever the state, every piece of state has its reset value, `CFG` is untouched, the
answer is `DONE`, and the first `DECODE_NEXT` afterwards returns `INCOMPLETE`. -/
def Obligations.ResetRestoresEveryResetValue : Prop :=
  decodeCommand ⟨1, []⟩ = .ok .reset ∧
  ∀ s : State, ∃ t u : State, exec .reset s = .next t ∧
    t.buf = [] ∧ t.res = .none ∧ t.reason = .none ∧ t.capture = none ∧ t.ovf = false ∧
    t.txRes = .none ∧ t.transmit = none ∧ t.scratch = Scratch.empty ∧
    t.cfg = s.cfg ∧ t.response = some .done ∧
    exec .decodeNext t = .next u ∧ u.res = .incomplete

/-- R103: command code 2 with one operand byte is `PUSH`. With room the byte is appended and the answer is `OK`; into a
full buffer it is dropped, `OVF` is set, nothing else changes, and the answer is `DROPPED`. -/
def Obligations.PushAppendsOrSetsOvf : Prop :=
  ∀ (s : State) (b : Byte),
    decodeCommand ⟨2, [b]⟩ = .ok (.push b) ∧
    (s.buf.length < s.cfg.bufCap →
      exec (.push b) s = .next { s with buf := s.buf ++ [b], response := some .pushed }) ∧
    (s.buf.length = s.cfg.bufCap →
      exec (.push b) s = .next { s with ovf := true, response := some .dropped })

/-- R172: `ENCODE` builds `[START, t, n] ++ p ++ [CK(...)]`, `TX_LEN` being `n + 4`, and writes nothing on the receive
side; its own scratch register holds no value afterwards (R28). -/
def Obligations.EncodeBuildsTheFrame : Prop :=
  ∀ (s : State) (t : Byte) (p : List Byte), s.cfg.wf = true → p.length ≤ s.cfg.maxLen →
    ∃ f : Transmit,
      f.txLen.toNat = p.length + 4 ∧
      f.tx = summedBytes s.cfg t p ++ [checksum s.cfg (summedBytes s.cfg t p)] ∧
      exec (.encode t p) s = .next { s with
        txRes := .ok
        transmit := some f
        scratch := { s.scratch with tacc := none }
        response := some (.encoded .ok (some f)) }

/-- R171: a payload longer than `MAX_LEN` gives `ERR_LEN`, `TX_LEN` and `TX` hold no value, nothing else changes; one
of more than 255 bytes does so under every well-formed configuration. -/
def Obligations.EncodeRefusesAnOverlongPayload : Prop :=
  ∀ (s : State) (t : Byte) (p : List Byte),
    (s.cfg.maxLen < p.length ∨ (s.cfg.wf = true ∧ 255 < p.length)) →
      exec (.encode t p) s = .next { s with
        txRes := .errLen
        transmit := none
        response := some (.encoded .errLen none) }

/-- R175: under one configuration two successful `ENCODE`s leave the same bytes only for the same operands. -/
def Obligations.EncodeIsInjective : Prop :=
  ∀ (s s' u u' : State) (t t' : Byte) (p p' : List Byte),
    s.cfg.wf = true → s'.cfg = s.cfg → p.length ≤ s.cfg.maxLen → p'.length ≤ s.cfg.maxLen →
    exec (.encode t p) s = .next u → exec (.encode t' p') s' = .next u' →
    u.transmit.map Transmit.tx = u'.transmit.map Transmit.tx → t = t' ∧ p = p'

/-- R174: what `ENCODE` built, pushed byte by byte with none dropped into a buffer that holds no `START`, is returned
whole by `DECODE_NEXT`, which leaves the buffer empty; a payload shorter than its kind's minimum is instead rejected as
`SHORT_PAYLOAD`. -/
def Obligations.EncodedFramesDecodeToThemselves : Prop :=
  ∀ (s u v : State) (t : Byte) (p : List Byte) (f : Transmit) (rs : List Response),
    s.cfg.wf = true → p.length ≤ s.cfg.maxLen → s.cfg.start ∉ s.buf →
    exec (.encode t p) s = .next u → u.transmit = some f →
    runScript exec (feed f.tx) u = some (rs, v) → (∀ r ∈ rs, r = .pushed) →
      ∃ w : State, exec .decodeNext v = .next w ∧
        (minLen s.cfg (kindOf s.cfg t) ≤ p.length →
          w.res = .frame ∧ w.buf = [] ∧
          ∃ g : Capture, w.capture = some g ∧ g.fStart = s.cfg.start ∧ g.fType = t ∧ g.fLen.toNat = p.length ∧
            g.fPay = p ∧ some g.fCk = f.tx[f.txLen.toNat - 1]? ∧ g.fKind = kindOf s.cfg t) ∧
        (p.length < minLen s.cfg (kindOf s.cfg t) → w.res = .invalid ∧ w.reason = .shortPayload)

/-- R27: `ENCODE` and the receive side share no state: what `ENCODE` answers depends on the configuration and its
operands alone, and `DECODE_NEXT` and `PUSH` leave the encode result registers as they are. -/
def Obligations.EncodeAndReceptionShareNoState : Prop :=
  (∀ (s s' u u' : State) (t : Byte) (p : List Byte), s'.cfg = s.cfg →
    exec (.encode t p) s = .next u → exec (.encode t p) s' = .next u' →
      u.txRes = u'.txRes ∧ u.transmit = u'.transmit ∧ u.response = u'.response ∧
      u.buf = s.buf ∧ u.res = s.res ∧ u.reason = s.reason ∧ u.capture = s.capture ∧ u.ovf = s.ovf) ∧
  (∀ (s u : State) (i : Instr), (i = .decodeNext ∨ ∃ b, i = .push b) → exec i s = .next u →
    u.txRes = s.txRes ∧ u.transmit = s.transmit)

/-! ## The checksum unit -/

/-- R140. -/
def Obligations.Sum8IsTheSumModulo256 : Prop :=
  ∀ s : List Byte, (sum8 s).toNat = (s.map BitVec.toNat).sum % 256

/-- R150 (a) to (f). -/
def Obligations.Sum8ArithmeticFacts : Prop :=
  (∀ s t : List Byte, (sum8 (s ++ t)).toNat = ((sum8 s).toNat + (sum8 t).toNat) % 256) ∧
  (∀ (s : List Byte) (b : Byte), (sum8 (s ++ [b])).toNat = ((sum8 s).toNat + b.toNat) % 256) ∧
  (∀ s t : List Byte, s.Perm t → sum8 s = sum8 t) ∧
  (∀ s : List Byte, (sum8 s).toNat ≤ 255) ∧
  (∀ (c : Config) (t : Byte),
    checksum c [c.start, t, 0] = c.fold (BitVec.ofNat 8 ((c.start.toNat + t.toNat) % 256))) ∧
  (∀ (c : Config) (s : List Byte) (ck : Byte), (∀ x, c.fold x = x) →
    (valid c s ck = true ↔ (sum8 (s ++ [ck])).toNat = 2 * ck.toNat % 256))

/-- R147: at a fixed extent, inverting one bit `k` of one summed byte `i` makes validation fail. -/
def Obligations.SingleBitErrorsAreDetected : Prop :=
  ∀ (c : Config) (s : List Byte) (i k : Nat) (hi : i < s.length), c.wf = true → k < 8 →
    valid c (s.set i (s[i] ^^^ BitVec.twoPow 8 k)) (checksum c s) = false

/-- R148: exactly one byte passes, and inverting any non-empty set `m` of its bits makes it fail. -/
def Obligations.ExactlyOneChecksumBytePasses : Prop :=
  ∀ (c : Config) (s : List Byte),
    (∀ ck : Byte, valid c s ck = true ↔ ck = checksum c s) ∧
    (∀ m : Byte, m ≠ 0 → valid c s (checksum c s ^^^ m) = false)

/-- R149: a corruption passes exactly when it leaves the sum alone; so do two bytes changed by `+d` and `-d`, and any
permutation. -/
def Obligations.WhatTheChecksumDoesNotDetect : Prop :=
  ∀ (c : Config) (s : List Byte), c.wf = true →
    (∀ s' : List Byte, valid c s' (checksum c s) = true ↔ sum8 s' = sum8 s) ∧
    (∀ s' : List Byte, s.Perm s' → valid c s' (checksum c s) = true) ∧
    (∀ (i j : Nat) (d : Byte) (hi : i < s.length) (hj : j < s.length), i ≠ j →
      valid c ((s.set i (s[i] + d)).set j (s[j] - d)) (checksum c s) = true)

/-! ## The dispatch table -/

/-- R160: the cases of `KIND`, which do not overlap. -/
def Obligations.KindFollowsTheTypeByte : Prop :=
  ∀ c : Config, c.wf = true →
    kindOf c c.typeConnect = .connect ∧ kindOf c c.typeTemp = .tempReport ∧
    kindOf c c.typeStatus = .statusReport ∧ kindOf c c.typeAck = .ack ∧
    ∀ t : Byte, t ∉ [c.typeConnect, c.typeTemp, c.typeStatus, c.typeAck] → kindOf c t = .unknown

/-- R162: the minimum of each kind, none above `MAX_LEN`. -/
def Obligations.MinimumLengthsAreTheConfigurations : Prop :=
  ∀ c : Config, c.wf = true →
    minLen c .connect = c.minConnect ∧ minLen c .tempReport = c.minTemp ∧ minLen c .statusReport = c.minStatus ∧
    minLen c .ack = c.minAck ∧ minLen c .unknown = c.minUnknown ∧ ∀ k : Kind, minLen c k ≤ c.maxLen

/-! ## The parser, test by test (R120, R189). `noise` is what the scan passes over. -/

/-- R122: no start byte. -/
def Obligations.NoStartByteIsIncomplete : Prop :=
  ∀ s : State, s.cfg.start ∉ s.buf →
    exec .decodeNext s = .next (s.withResult [] .incomplete .none none)

/-- R123: the start byte is there but the length byte is not. -/
def Obligations.PartialHeaderIsIncomplete : Prop :=
  ∀ (s : State) (noise tail : List Byte), s.buf = noise ++ s.cfg.start :: tail → s.cfg.start ∉ noise →
    tail.length ≤ 1 →
    exec .decodeNext s = .next (s.withResult (s.cfg.start :: tail) .incomplete .none none)

/-- R126, R184: a length above `MAX_LEN` is rejected at once, whatever follows it. -/
def Obligations.LengthOutOfRangeIsRejected : Prop :=
  ∀ (s : State) (noise rest : List Byte) (t n : Byte),
    s.buf = noise ++ s.cfg.start :: t :: n :: rest → s.cfg.start ∉ noise → s.cfg.maxLen < n.toNat →
    exec .decodeNext s = .next (s.withResult (t :: n :: rest) .invalid .lenRange none)

/-- R127: the frame of the declared length is not wholly there; nothing of it is consumed. -/
def Obligations.MissingBodyIsIncomplete : Prop :=
  ∀ (s : State) (noise rest : List Byte) (t n : Byte),
    s.buf = noise ++ s.cfg.start :: t :: n :: rest → s.cfg.start ∉ noise → n.toNat ≤ s.cfg.maxLen →
    rest.length < n.toNat + 1 →
    exec .decodeNext s = .next (s.withResult (s.cfg.start :: t :: n :: rest) .incomplete .none none)

/-- R129, R131, R182: a complete candidate with a wrong checksum byte is rejected as `BAD_CHECKSUM`, also when its
payload is too short as well, and costs exactly its start byte. -/
def Obligations.WrongChecksumIsRejected : Prop :=
  ∀ (s : State) (noise p rest : List Byte) (t ck : Byte), s.cfg.wf = true →
    s.buf = noise ++ frameBytes s.cfg t p ck ++ rest → s.cfg.start ∉ noise → p.length ≤ s.cfg.maxLen →
    ck ≠ checksum s.cfg (summedBytes s.cfg t p) →
    exec .decodeNext s =
      .next (s.withResult ((frameBytes s.cfg t p ck).tail ++ rest) .invalid .badChecksum none)

/-- R183: a complete candidate with the right checksum byte and a payload below its kind's minimum is rejected and costs
exactly its start byte; where the other minimums are 0, as decided, this happens to `STATUS_REPORT` only. -/
def Obligations.ShortPayloadIsRejected : Prop :=
  ∀ (s : State) (noise p rest : List Byte) (t ck : Byte), s.cfg.wf = true →
    s.buf = noise ++ frameBytes s.cfg t p ck ++ rest → s.cfg.start ∉ noise → p.length ≤ s.cfg.maxLen →
    ck = checksum s.cfg (summedBytes s.cfg t p) → p.length < minLen s.cfg (kindOf s.cfg t) →
    exec .decodeNext s =
      .next (s.withResult ((frameBytes s.cfg t p ck).tail ++ rest) .invalid .shortPayload none) ∧
    (s.cfg.minConnect = 0 → s.cfg.minTemp = 0 → s.cfg.minAck = 0 → s.cfg.minUnknown = 0 →
      t = s.cfg.typeStatus)

/-- R130: a candidate that passes every test, and no other, is captured whole and consumed whole. -/
def Obligations.AcceptedFrameIsCapturedWhole : Prop :=
  (∀ (s : State) (noise p rest : List Byte) (t ck : Byte), s.cfg.wf = true →
    s.buf = noise ++ frameBytes s.cfg t p ck ++ rest → s.cfg.start ∉ noise →
    Acceptable s.cfg (kindOf s.cfg t) t p ck →
    exec .decodeNext s =
      .next (s.withResult rest .frame .none (some (captureOf s.cfg (kindOf s.cfg t) t p ck)))) ∧
  (∀ s u : State, exec .decodeNext s = .next u → u.res = .frame →
    ∃ noise t p ck rest, s.buf = noise ++ frameBytes s.cfg t p ck ++ rest ∧ s.cfg.start ∉ noise ∧
      Acceptable s.cfg (kindOf s.cfg t) t p ck)

/-- R161: an unknown type byte is no error: such a frame that passes the length and checksum tests is accepted like
any other, with kind `UNKNOWN`, and the cursor passes the whole of it. -/
def Obligations.UnknownTypeIsNeverAnError : Prop :=
  ∀ (s : State) (noise p rest : List Byte) (t ck : Byte), s.cfg.wf = true →
    s.buf = noise ++ frameBytes s.cfg t p ck ++ rest → s.cfg.start ∉ noise →
    t ∉ [s.cfg.typeConnect, s.cfg.typeTemp, s.cfg.typeStatus, s.cfg.typeAck] →
    Acceptable s.cfg .unknown t p ck →
    ∃ u : State, exec .decodeNext s = .next u ∧ u.res = .frame ∧ u.buf = rest ∧
      ∃ f : Capture, u.capture = some f ∧ f.fKind = .unknown ∧ f.fType = t ∧ f.fPay = p

/-- R181: `INCOMPLETE` is returned exactly when, after the scan, the buffer is empty, or holds fewer than 3 bytes, or
holds fewer bytes than a legal declared length asks for; the capture registers then hold no value and the cursor has
not passed the start byte. -/
def Obligations.IncompleteHasExactlyItsThreeCauses : Prop :=
  ∀ s u : State, exec .decodeNext s = .next u →
    (u.res = .incomplete ↔
      (Memory.scan s.cfg.start s.buf).length < 3 ∨
      ∃ t n rest, Memory.scan s.cfg.start s.buf = s.cfg.start :: t :: n :: rest ∧ n.toNat ≤ s.cfg.maxLen ∧
        (Memory.scan s.cfg.start s.buf).length < n.toNat + 4) ∧
    (u.res = .incomplete →
      u.reason = .none ∧ u.capture = none ∧ u.buf = Memory.scan s.cfg.start s.buf)

/-! ## Laws of the parser -/

/-- R121: bytes before the first `START` are consumed and leave no trace: `DECODE_NEXT` does what it does without them,
and of what follows them the scan consumes nothing. -/
def Obligations.BytesBeforeTheStartByteLeaveNoTrace : Prop :=
  ∀ (s : State) (noise view : List Byte), s.buf = noise ++ view → s.cfg.start ∉ noise →
    exec .decodeNext s = exec .decodeNext { s with buf := view } ∧
    ((view = [] ∨ ∃ rest, view = s.cfg.start :: rest) →
      ∀ u, exec .decodeNext s = .next u → u.res = .incomplete → u.buf = view)

/-- R22: how each command moves the cursor. -/
def Obligations.CursorMovesOnlyAsItsCommandSays : Prop :=
  (∀ s u : State, exec .decodeNext s = .next u →
    ∃ noise view, s.buf = noise ++ view ∧ s.cfg.start ∉ noise ∧
      (view = [] ∨ ∃ rest, view = s.cfg.start :: rest) ∧
      ((u.res = .incomplete ∧ u.buf = view) ∨
       (u.res = .invalid ∧ view ≠ [] ∧ u.buf = view.drop 1) ∨
       (u.res = .frame ∧ ∃ f, u.capture = some f ∧ f.fLen.toNat + 4 ≤ view.length ∧
         u.buf = view.drop (f.fLen.toNat + 4)))) ∧
  (∀ (s u : State) (b : Byte), exec (.push b) s = .next u → u.buf = s.buf ∨ u.buf = s.buf ++ [b]) ∧
  (∀ s u : State, exec .reset s = .next u → u.buf = []) ∧
  (∀ (s u : State) (t : Byte) (p : List Byte), exec (.encode t p) s = .next u → u.buf = s.buf) ∧
  (∀ s u : State, exec .nop s = .next u → u.buf = s.buf)

/-- R133: after `INCOMPLETE` a second `DECODE_NEXT` returns `INCOMPLETE` and changes no state. -/
def Obligations.IncompleteCarriesNothingOver : Prop :=
  ∀ s u : State, exec .decodeNext s = .next u → u.res = .incomplete → exec .decodeNext u = .next u

/-- R134: `FRAME` and `INVALID` make the buffer shorter, nothing makes it longer, and `DRAIN` on `n` bytes ends with
`INCOMPLETE` after at most `n + 1` commands with at most `n / 4` frames. -/
def Obligations.DecodingMakesProgressAndDrainEnds : Prop :=
  (∀ s u : State, exec .decodeNext s = .next u →
    u.buf.length ≤ s.buf.length ∧
    (u.res = .frame → u.buf.length + 4 ≤ s.buf.length) ∧
    (u.res = .invalid → u.buf.length + 1 ≤ s.buf.length)) ∧
  (∀ s : State, ∃ rs u, drain (s.buf.length + 1) s = some (rs, u) ∧ u.res = .incomplete ∧
    rs.length ≤ s.buf.length + 1 ∧ rs.getLast? = some (.decoded .incomplete .none none) ∧
    (rs.filter Response.isFrame).length ≤ s.buf.length / 4)

/-- R136: after `INCOMPLETE` at most two bytes or part of one frame are held, so the next byte is accepted. -/
def Obligations.ThereIsRoomAfterIncomplete : Prop :=
  ∀ s u : State, s.cfg.wf = true → exec .decodeNext s = .next u → u.res = .incomplete →
    u.cfg = s.cfg ∧ u.buf.length < s.cfg.maxLen + 4 ∧ u.buf.length < s.cfg.bufCap ∧
    ∀ b : Byte, exec (.push b) u = .next { u with buf := u.buf ++ [b], response := some .pushed }

/-- R105: the response of `DECODE_NEXT` and the new buffer are functions of the buffer and the configuration alone. -/
def Obligations.DecodeNextDependsOnBufferAndConfigAlone : Prop :=
  ∀ s s' : State, s'.cfg = s.cfg → s'.buf = s.buf →
    ∃ u u' : State, exec .decodeNext s = .next u ∧ exec .decodeNext s' = .next u' ∧
      u.response = u'.response ∧ u.buf = u'.buf ∧ u.res = u'.res ∧ u.reason = u'.reason ∧ u.capture = u'.capture

/-- R135: the parser that puts scanned bytes back on `INCOMPLETE` answers every stream, however `PUSH` and
`DECODE_NEXT` interleave, with the same responses, frames included; it only holds at least as many bytes. -/
def Obligations.ConsumingInTheScanChangesNoResult : Prop :=
  ∀ (c : Config) (script : List Instr) (rs : List Response) (v : State), c.wf = true → isReception script = true →
    runScript execPutBack script (State.resetWith c) = some (rs, v) → v.ovf = false →
    ∃ u : State, runScript exec script (State.resetWith c) = some (rs, u) ∧
      u.capture = v.capture ∧ u.res = v.res ∧ u.reason = v.reason ∧ u.buf.length ≤ v.buf.length

/-- R137: a genuine frame behind garbage is found, whole, if every false start in the garbage is rejectable. -/
def Obligations.ResynchronisationFindsTheGenuineFrame : Prop :=
  ∀ (c : Config) (g v : List Byte) (f : Capture), c.wf = true →
    runOf c v = some ([frameResponse f], []) →
    (∀ j, j < g.length → (g ++ v)[j]? = some c.start → Rejectable c (g ++ v) j) →
    ∃ rs : List Response, (∀ r ∈ rs, r.isInvalid) ∧ rs.length = falseStarts c (g ++ v) g.length ∧
      runOf c (g ++ v) = some (rs ++ [frameResponse f], [])

/-- R138: however a stream is cut into pushes and decodes, the results other than `INCOMPLETE` and the residue are
those of the stream drained at once. -/
def Obligations.ResultsDoNotDependOnChunking : Prop :=
  ∀ (c : Config) (script : List Instr) (rs rs' : List Response) (u v : State), c.wf = true →
    isReception script = true → runScript exec script (State.resetWith c) = some (rs, u) → u.ovf = false →
    drain (u.buf.length + 1) u = some (rs', v) →
    runOf c (pushedBytes script) = some (results (rs ++ rs'), v.buf)

/-- R58: from any state, and so since the last reset, what `buf` held and the bytes pushed with room are, in that order
and without loss or repetition, the bytes the commands consumed followed by those `buf` holds. The consumed bytes are
those of each `DECODE_NEXT`: the ones its scan passes, then 0, 1 or `F_LEN + 4` (R22). While `OVF` is 0 every pushed byte
is among them; otherwise only bytes pushed into a full buffer are missing, and the order of the rest is kept. -/
def Obligations.BufferIsTheUnconsumedTailOfTheStream : Prop :=
  ∀ (s u : State) (script : List Instr) (rs : List Response),
    (∀ i ∈ script, i ≠ .reset ∧ frameFields s.cfg i = none) →
    runScript exec script s = some (rs, u) →
    s.buf ++ keptAlong script s = consumedAlong script s ++ u.buf ∧
    (keptAlong script s).Sublist (pushedBytes script) ∧
    (u.ovf = false → keptAlong script s = pushedBytes script)

/-! ## Frame rows -/

/-- R130, R160: a frame of each kind that passes every test is captured under its kind and consumed whole. The row as
an instruction is the model's choice (log entry 9). -/
def Obligations.AcceptableFrameRowsAreAccepted : Prop :=
  ∀ (s : State) (p : List Byte) (ck : Byte), s.cfg.wf = true →
    (Acceptable s.cfg .connect s.cfg.typeConnect p ck →
      exec (.connect p ck) s = .next (s.withResult (s.buf.drop (p.length + 4)) .frame .none
        (some (captureOf s.cfg .connect s.cfg.typeConnect p ck)))) ∧
    (Acceptable s.cfg .tempReport s.cfg.typeTemp p ck →
      exec (.tempReport p ck) s = .next (s.withResult (s.buf.drop (p.length + 4)) .frame .none
        (some (captureOf s.cfg .tempReport s.cfg.typeTemp p ck)))) ∧
    (Acceptable s.cfg .statusReport s.cfg.typeStatus p ck →
      exec (.statusReport p ck) s = .next (s.withResult (s.buf.drop (p.length + 4)) .frame .none
        (some (captureOf s.cfg .statusReport s.cfg.typeStatus p ck)))) ∧
    (Acceptable s.cfg .ack s.cfg.typeAck p ck →
      exec (.ack p ck) s = .next (s.withResult (s.buf.drop (p.length + 4)) .frame .none
        (some (captureOf s.cfg .ack s.cfg.typeAck p ck)))) ∧
    (∀ t : Byte, t ∉ [s.cfg.typeConnect, s.cfg.typeTemp, s.cfg.typeStatus, s.cfg.typeAck] →
      Acceptable s.cfg .unknown t p ck →
      exec (.unknown t p ck) s = .next (s.withResult (s.buf.drop (p.length + 4)) .frame .none
        (some (captureOf s.cfg .unknown t p ck))))

/-- R85 (c), (d): a frame row with a wrong checksum byte is rejected as `BAD_CHECKSUM`, one with the right byte and a
payload below its kind's minimum as `SHORT_PAYLOAD`; each costs one byte. The row as an instruction is the model's
choice (log entry 9). -/
def Obligations.IllegalFrameRowsAreRejected : Prop :=
  ∀ (s : State) (i : Instr) (k : Kind) (t ck : Byte) (p : List Byte), s.cfg.wf = true → i.wf s.cfg = true →
    frameFields s.cfg i = some (k, t, p, ck) →
    (ck ≠ checksum s.cfg (summedBytes s.cfg t p) →
      exec i s = .next (s.withResult (s.buf.drop 1) .invalid .badChecksum none)) ∧
    (ck = checksum s.cfg (summedBytes s.cfg t p) → p.length < minLen s.cfg k →
      exec i s = .next (s.withResult (s.buf.drop 1) .invalid .shortPayload none))

/-- The parser runs the frame that the frame decoder reads at the cursor: with a whole frame there after the scan,
`DECODE_NEXT` is the meaning of that frame's row; where the decoder names a missing or overlong part, it is
`INCOMPLETE` or `INVALID` with `LEN_RANGE`. The row as an instruction is the model's choice (log entry 9). -/
def Obligations.DecodeNextRunsTheFrameAtTheCursor : Prop :=
  ∀ s : State,
    match decodeFrame s.cfg (Memory.scan s.cfg.start s.buf) with
    | .ok (i, _) => exec .decodeNext s = exec i { s with buf := Memory.scan s.cfg.start s.buf }
    | .error .lengthRange =>
      exec .decodeNext s =
        .next (s.withResult ((Memory.scan s.cfg.start s.buf).drop 1) .invalid .lenRange none)
    | .error _ =>
      exec .decodeNext s = .next (s.withResult (Memory.scan s.cfg.start s.buf) .incomplete .none none)

/-! ## The whole machine -/

/-- R100 of the five commands: each ends, from every state and for all operands, in a next state with a response. That
the frame rows are instructions and do so too, whatever `buf` holds, is the model's choice (log entry 9), and so is that
`exec` does not look at whether the configuration is well-formed (log entry 6) and that the response stands in a field
(log entry 5). -/
def Obligations.EveryCommandEndsInANextState : Prop :=
  ∀ (i : Instr) (s : State), ∃ (u : State) (r : Response), exec i s = .next u ∧ u.response = some r

/-- R25: `OVF` is set by a `PUSH` that finds the buffer full and by nothing else, cleared by `RESET` and by nothing
else; nothing else depends on it; the host can read it. -/
def Obligations.OvfIsSetByAFullPushAndClearedByReset : Prop :=
  ∀ (i : Instr) (s u : State), s.buf.length ≤ s.cfg.bufCap → exec i s = .next u →
    (u.ovf = true ↔ i ≠ .reset ∧ (s.ovf = true ∨ ∃ b, i = .push b ∧ s.buf.length = s.cfg.bufCap)) ∧
    (∀ x : Bool, ∃ y : Bool, exec i { s with ovf := x } = .next { u with ovf := y }) ∧
    (u.cfg.wf = true → u.hostRead .ovf = .ok u.ovf.toNat)

/-- R35: what each command may change; all else is as it was, the bytes of the transmit side and the configuration
among it. `DECODE_NEXT` writes the six scratch registers of the parser and `ENCODE` the one of the encoder. The bytes of
`buf` that stay are moved by as many as the scan and the result consume (R22). That what the host presents (`port`)
stays, after `RESET` too, and that the response stands in a field, are the model's choice (log entry 5); so are the frame
rows as instructions (log entry 9). -/
def Obligations.CommandsTouchOnlyTheirOwnState : Prop :=
  ∀ s u : State,
    (exec .nop s = .next u → u = { s with response := u.response }) ∧
    (exec .reset s = .next u → u.cfg = s.cfg ∧ u.port = s.port) ∧
    (∀ b, exec (.push b) s = .next u →
      u = { s with buf := u.buf, ovf := u.ovf, response := u.response } ∧
      (s.ovf = true → u.ovf = true) ∧
      ∀ a, a ≠ s.buf.length → u.buf.read a = s.buf.read a) ∧
    (∀ i : Instr, (i = .decodeNext ∨ (frameFields s.cfg i).isSome = true) → exec i s = .next u →
      u = { s with
        buf := u.buf, res := u.res, reason := u.reason, capture := u.capture
        scratch := { u.scratch with tacc := s.scratch.tacc }
        response := u.response }) ∧
    (exec .decodeNext s = .next u →
      ∀ a, u.buf.read a = s.buf.read (a + (Memory.scanned s.cfg.start s.buf + u.endAdvance))) ∧
    (∀ i : Instr, (frameFields s.cfg i).isSome = true → exec i s = .next u →
      ∀ a, u.buf.read a = s.buf.read (a + u.endAdvance)) ∧
    (∀ t p, exec (.encode t p) s = .next u →
      u = { s with
        txRes := u.txRes, transmit := u.transmit, scratch := { s.scratch with tacc := u.scratch.tacc }
        response := u.response })

/-- R28: no scratch register carries a value from one command to the next: what a command does, the scratch registers
apart, does not depend on them. The frame rows as instructions are the model's choice (log entry 9). -/
def Obligations.ScratchRegistersCarryNothingOver : Prop :=
  ∀ (i : Instr) (s u : State) (x : Scratch), exec i s = .next u →
    ∃ y : Scratch, exec i { s with scratch := x } = .next { u with scratch := y }

/-- R33 at reset: the state after reset meets the invariant, under every well-formed configuration, the sample one of
`State.reset` (the model's choice, log entry 2) among them. -/
def Obligations.InvariantHoldsAfterReset : Prop :=
  (∀ c : Config, c.wf = true → (State.resetWith c).Inv) ∧ State.reset.Inv

/-- R33 after every command: from every state that meets the invariant, a step leads to one that does, leaves the
configuration alone, and leaves `OVF` set unless the command presented is `RESET`. -/
def Obligations.EveryStepKeepsTheInvariant : Prop :=
  ∀ s u : State, s.Inv → step s = .next u →
    u.Inv ∧ u.cfg = s.cfg ∧ (s.ovf = true → s.nowPresented ≠ .command .reset → u.ovf = true)

/-- A step runs the command presented: exec of the decoded instruction, with the port moved on. The port is the model's
(log entry 5). -/
def Obligations.StepRunsThePresentedCommand : Prop :=
  ∀ (s : State) (tr : Transaction) (later : List (List Transaction)) (i : Instr), s.cfg.wf = true →
    s.port = [tr] :: later → decodeCommand tr = .ok i → step s = exec i { s with port := later }

/-- R84: the five command codes, each with the operands of R86, run their command, and the reserved codes are
refused. That they stand at a port, and the operands in a list of bytes, is the model's choice (log entries 5 and 3). -/
def Obligations.CommandCodesRunTheirCommands : Prop :=
  ∀ (s : State) (later : List (List Transaction)) (t b : Byte) (p : List Byte) (code : BitVec 3) (ops : List Byte),
    s.cfg.wf = true →
    (s.port = [⟨0, []⟩] :: later → step s = exec .nop { s with port := later }) ∧
    (s.port = [⟨1, []⟩] :: later → step s = exec .reset { s with port := later }) ∧
    (s.port = [⟨2, [b]⟩] :: later → step s = exec (.push b) { s with port := later }) ∧
    (s.port = [⟨3, []⟩] :: later → step s = exec .decodeNext { s with port := later }) ∧
    (s.port = [⟨4, t :: p⟩] :: later → step s = exec (.encode t p) { s with port := later }) ∧
    (s.port = [⟨code, ops⟩] :: later → 5 ≤ code.toNat → step s = .refused (.reservedCommand code))

/-- R57, R6, R11, at the model's port (log entry 5): two commands at once are refused, an ill-formed configuration is
refused whatever is presented and whatever the host reads, and with nothing presented nothing changes but the
instant. -/
def Obligations.SituationsWithoutACommand : Prop :=
  ∀ (s : State),
    (∀ t1 t2 more later, s.cfg.wf = true → s.port = (t1 :: t2 :: more) :: later →
      step s = .refused .simultaneousCommands) ∧
    (¬ s.cfg.WellFormed →
      step s = .refused .illFormedConfig ∧ ∀ r : Reg, s.hostRead r = .error .illFormedConfig) ∧
    (s.cfg.wf = true → s.port = [] → step s = .next s) ∧
    (∀ later, s.cfg.wf = true → s.port = [] :: later → step s = .next { s with port := later })

/-! ## Registers the host reads -/

/-- R30: reading a register that holds no value is refused. -/
def Obligations.RegistersWithoutValueAreRefused : Prop :=
  ∀ s : State, s.Inv →
    (s.res ≠ .frame → ∀ i, ∀ r ∈ [Reg.fStart, .fType, .fLen, .fPay i, .fCk, .fKind],
      s.hostRead r = .error .noValue) ∧
    (∀ f, s.capture = some f → ∀ i, f.fLen.toNat ≤ i → s.hostRead (.fPay i) = .error .noValue) ∧
    (s.txRes ≠ .ok → ∀ i, ∀ r ∈ [Reg.txLen, .tx i], s.hostRead r = .error .noValue) ∧
    (∀ f, s.transmit = some f → ∀ i, f.txLen.toNat ≤ i → s.hostRead (.tx i) = .error .noValue) ∧
    (∀ r ∈ [Reg.typeR, .lenR, .need, .acc, .ckR, .kindR, .tacc], s.hostRead r = .error .noValue)

/-- R24, R26, R27: the registers that hold values read as those values: the status view always, the capture registers
while `RES = FRAME`, the transmit registers while `TX_RES = OK`. `COUNT` fits its width. -/
def Obligations.RegistersWithValuesAreReadable : Prop :=
  ∀ s : State, s.Inv →
    s.hostRead .count = .ok s.buf.length ∧ s.countBits.toNat = s.buf.length ∧
    s.hostRead .ovf = .ok s.ovf.toNat ∧ s.hostRead .res = .ok s.res.code.toNat ∧
    s.hostRead .reason = .ok s.reason.code.toNat ∧ s.hostRead .txRes = .ok s.txRes.code.toNat ∧
    (s.res = .frame → ∃ f, s.capture = some f ∧ s.hostRead .fStart = .ok s.cfg.start.toNat ∧
      s.hostRead .fType = .ok f.fType.toNat ∧ s.hostRead .fLen = .ok f.fPay.length ∧
      s.hostRead .fCk = .ok f.fCk.toNat ∧ s.hostRead .fKind = .ok (kindCode (kindOf s.cfg f.fType)).toNat ∧
      ∀ i (hi : i < f.fPay.length), s.hostRead (.fPay i) = .ok f.fPay[i].toNat) ∧
    (s.txRes = .ok → ∃ f, s.transmit = some f ∧ s.hostRead .txLen = .ok f.tx.length ∧
      ∀ i (hi : i < f.tx.length), s.hostRead (.tx i) = .ok f.tx[i].toNat)

/-- R80 to R83: the codes of the result registers and of the response of `PUSH`. -/
def Obligations.ResultCodesAreTheSpecs : Prop :=
  (Res.code .none = 0 ∧ Res.code .incomplete = 1 ∧ Res.code .frame = 2 ∧ Res.code .invalid = 3) ∧
  (Reason.code .none = 0 ∧ Reason.code .badChecksum = 1 ∧ Reason.code .shortPayload = 2 ∧
    Reason.code .lenRange = 3) ∧
  (kindCode .unknown = 0 ∧ kindCode .connect = 1 ∧ kindCode .tempReport = 2 ∧ kindCode .statusReport = 3 ∧
    kindCode .ack = 4 ∧ ∀ k, (kindCode k).toNat < 5) ∧
  (TxRes.code .none = 0 ∧ TxRes.code .ok = 1 ∧ TxRes.code .errLen = 2 ∧ ∀ r, TxRes.code r ≠ 3) ∧
  (Response.pushBit .pushed = some 1 ∧ Response.pushBit .dropped = some 0)

/-! ## Encodings -/

/-- Decoding the encoding of a well-formed instruction gives it back, with every operand. -/
def Obligations.DecodeOfEncodeIsTheInstruction : Prop :=
  ∀ (c : Config) (i : Instr), c.wf = true → i.wf c = true → decode c (encode c i) = .ok i

/-- Each encoding has one meaning: what decodes is well-formed and encodes to the same bits. -/
def Obligations.EncodeOfDecodeIsTheEncoding : Prop :=
  ∀ (c : Config) (e : Encoding) (i : Instr), decode c e = .ok i → i.wf c = true ∧ encode c i = e

/-- R71, R77: a frame's bytes are the fields at their offsets, `LEN + 4` of them. -/
def Obligations.FrameFieldsStandAtTheirOffsets : Prop :=
  ∀ (c : Config) (t ck : Byte) (p : List Byte), c.wf = true → p.length ≤ c.maxLen →
    (frameBytes c t p ck).length = p.length + 4 ∧
    (frameBytes c t p ck)[0]? = some c.start ∧ (frameBytes c t p ck)[1]? = some t ∧
    (frameBytes c t p ck)[2]?.map BitVec.toNat = some p.length ∧
    (∀ i, i < p.length → (frameBytes c t p ck)[3 + i]? = p[i]?) ∧
    (frameBytes c t p ck)[p.length + 3]? = some ck

/-- Words written out from the opcode table, and the sample headers it gives under `REFCFG`, decode to their rows. The
layout beyond the table's bits and `REFCFG` are the model's choice (log entries 4 and 2). -/
def Obligations.TableWordsDecodeToTheirRows : Prop :=
  decodeTableWord 8 0 = some .nop ∧ decodeTableWord 8 1 = some .reset ∧
  decodeTableWord 16 0x1502 = some (.push 0x15) ∧ decodeTableWord 8 3 = some .decodeNext ∧
  decodeTableWord 8 4 = some (.encode 0 []) ∧ decodeTableWord 32 0x15030204 = some (.encode 2 [3, 0x15]) ∧
  decodeTableWord 24 0xFC0100 = some (.connect [] 0) ∧ decodeTableWord 24 0xFC0201 = some (.tempReport [0] 0) ∧
  decodeTableWord 24 0xFC0300 = some (.statusReport [] 0) ∧ decodeTableWord 24 0xFC0400 = some (.ack [] 0) ∧
  decodeTableWord 24 0xFC7E00 = some (.unknown 0x7E [] 0) ∧ decodeTableWord 8 5 = none

/-! ## The ring realisation -/

/-- R36: on a ring in its ranges, `PUSH` with room appends, a cursor advance drops, the scan is the buffer's scan,
`RESET` empties, and the ranges are kept. -/
def Obligations.RingRefinesTheBuffer : Prop :=
  ∀ (cap : Nat) (r : Ring), r.wf cap = true →
    (r.toBuf cap).length = r.cnt ∧
    (∀ b, r.cnt < cap → (r.push cap b).wf cap = true ∧ (r.push cap b).toBuf cap = (r.toBuf cap).append b) ∧
    (∀ b, r.cnt = cap → r.push cap b = r) ∧
    (∀ n, n ≤ r.cnt → (r.advance cap n).wf cap = true ∧
      (r.advance cap n).toBuf cap = (r.toBuf cap).advance n) ∧
    (∀ start, (r.scan cap start r.cnt).wf cap = true ∧
      (r.scan cap start r.cnt).toBuf cap = Memory.scan start (r.toBuf cap)) ∧
    (r.reset.wf cap = true ∧ r.reset.toBuf cap = [])
end

