-- ==== Sys2Proof/Laws/Checksum.lean ====
section
/-! SUPPORT. The checksum unit: the accumulator adds, and what passing the checksum test says. -/

namespace Sys2Proof.Machine

/-- The accumulator adds: from any start value it ends at that value plus the sum. -/
theorem accumulate_eq (a : Byte) (s : List Byte) : accumulate a s = a + sum8 s := by
  have h : ∀ (s : List Byte) (a b : Byte), accumulate (a + b) s = a + accumulate b s := by
    intro s
    induction s with
    | nil => intro a b; rfl
    | cons x s ih =>
      intro a b
      simp only [accumulate, List.foldl_cons, addByte] at ih ⊢
      rw [BitVec.add_assoc, ih]
  simpa [sum8] using h s a 0

theorem sum8_cons (b : Byte) (s : List Byte) : sum8 (b :: s) = b + sum8 s := by
  have : sum8 (b :: s) = accumulate (0 + b) s := rfl
  simp [this, accumulate_eq]

@[simp] theorem sum8_nil : sum8 [] = 0 := rfl

theorem sum8_append (s t : List Byte) : sum8 (s ++ t) = sum8 s + sum8 t := by
  have : sum8 (s ++ t) = accumulate (sum8 s) t := by simp [sum8, accumulate]
  rw [this, accumulate_eq]

theorem sum8_singleton (b : Byte) : sum8 [b] = b := by simp [sum8_cons]

/-- The accumulator of `ENCODE`, started from its header, is the sum of all the bytes before the checksum byte. -/
theorem accumulate_header (start t n : Byte) (p : List Byte) :
    accumulate (start + t + n) p = sum8 ([start, t, n] ++ p) := by
  rw [accumulate_eq]
  simp only [List.cons_append, List.nil_append, sum8_cons, BitVec.add_assoc]

/-- The checksum test, as an equation. -/
theorem valid_iff (c : Config) (s : List Byte) (ck : Byte) : valid c s ck = true ↔ c.fold (sum8 s) = ck := by
  unfold valid
  rw [decide_eq_true_iff]
  rfl

end Sys2Proof.Machine
end

