-- ==== Sys2Proof/Laws/Config.lean ====
section
/-! SUPPORT. The quick check of a configuration is R6, and what a well-formed configuration gives. -/

namespace Sys2Proof

theorem byteSet_foldl_testBit (l : List Byte) (m k : Nat) :
    (l.foldl (fun m b => m ||| 1 <<< b.toNat) m).testBit k = (m.testBit k || l.any fun b => b.toNat == k) := by
  induction l generalizing m with
  | nil => simp
  | cons b l ih =>
    rw [List.foldl_cons, ih, List.any_cons, Nat.testBit_or, Nat.one_shiftLeft, Nat.testBit_two_pow, Bool.or_assoc]
    rfl

/-- Bit `k` of `byteSet l` says whether some byte of `l` has the value `k`. -/
theorem byteSet_testBit (l : List Byte) (k : Nat) : (byteSet l).testBit k = l.any fun b => b.toNat == k := by
  simp [byteSet, byteSet_foldl_testBit]

theorem byteSet_eq_all_iff (l : List Byte) : byteSet l = 2 ^ 256 - 1 ↔ ∀ x : Byte, x ∈ l := by
  constructor
  · intro h x
    have hx := congrArg (fun n => n.testBit x.toNat) h
    simp only [byteSet_testBit, Nat.testBit_two_pow_sub_one] at hx
    rw [decide_eq_true x.isLt, List.any_eq_true] at hx
    obtain ⟨b, hb, he⟩ := hx
    rwa [← BitVec.eq_of_toNat_eq (beq_iff_eq.mp he)]
  · intro h
    apply Nat.eq_of_testBit_eq
    intro k
    rw [byteSet_testBit, Nat.testBit_two_pow_sub_one, Bool.eq_iff_iff, List.any_eq_true, decide_eq_true_iff]
    constructor
    · rintro ⟨b, -, he⟩
      exact beq_iff_eq.mp he ▸ b.isLt
    · intro hk
      exact ⟨BitVec.ofNat 8 k, h _, by simp [Nat.mod_eq_of_lt hk]⟩

theorem Config.mem_ckFold_iff (c : Config) (y : Byte) : y ∈ c.ckFold.toList ↔ ∃ x, c.fold x = y := by
  constructor
  · intro h
    obtain ⟨n, hn, he⟩ := List.getElem_of_mem h
    have hn' : n < 256 := by simpa using hn
    refine ⟨BitVec.ofNat 8 n, ?_⟩
    simp only [Config.fold, BitVec.toNat_ofNat, Nat.mod_eq_of_lt hn']
    simpa using he
  · rintro ⟨x, rfl⟩
    simp [Config.fold]

theorem Config.fold_bijective_iff (c : Config) :
    Function.Bijective c.fold ↔ byteSet c.ckFold.toList = 2 ^ 256 - 1 := by
  rw [byteSet_eq_all_iff, ← Finite.surjective_iff_bijective]
  exact ⟨fun h y => (c.mem_ckFold_iff y).2 (h y), fun h y => (c.mem_ckFold_iff y).1 (h y)⟩

/-- The check is R6. -/
theorem Config.wf_iff (c : Config) : c.wf = true ↔ c.WellFormed := by
  simp only [Config.wf, Config.WellFormed, Bool.and_eq_true, beq_iff_eq, decide_eq_true_eq, c.fold_bijective_iff]
  tauto

theorem Config.fold_injective {c : Config} (h : c.wf = true) : Function.Injective c.fold :=
  ((c.wf_iff.1 h).1).1

theorem Config.maxLen_le {c : Config} (h : c.wf = true) : c.maxLen ≤ 255 := (c.wf_iff.1 h).2.2.2.1

theorem Config.room {c : Config} (h : c.wf = true) : c.maxLen + 4 ≤ c.bufCap := (c.wf_iff.1 h).2.2.2.2

theorem Config.types_nodup {c : Config} (h : c.wf = true) :
    [c.typeConnect, c.typeTemp, c.typeStatus, c.typeAck].Nodup := (c.wf_iff.1 h).2.1

/-- The table of a function holds the function. -/
theorem Config.fold_foldTable (c : Config) (f : Byte → Byte) (h : c.ckFold = foldTable f) (x : Byte) :
    c.fold x = f x := by
  have hx : x.toNat < 256 := x.isLt
  simp [Config.fold, h, foldTable]

end Sys2Proof
end

