-- ==== Sys2Proof/Laws/Decode.lean ====
section
/-! SUPPORT. The dispatch table, and what the frame decoder answers on the bytes of a frame. -/

namespace Sys2Proof

theorem kindOf_eq (c : Config) (t : Byte) :
    kindOf c t =
      if t = c.typeConnect then .connect else if t = c.typeTemp then .tempReport
      else if t = c.typeStatus then .statusReport else if t = c.typeAck then .ack else .unknown := by
  simp only [kindOf, typeTable, List.lookup]
  by_cases h1 : t = c.typeConnect <;> by_cases h2 : t = c.typeTemp <;> by_cases h3 : t = c.typeStatus <;>
    by_cases h4 : t = c.typeAck <;> simp [h1, h2, h3, h4, beq_eq_decide] <;> simp_all

section
variable {c : Config}

theorem kindOf_connect (c : Config) : kindOf c c.typeConnect = .connect := by simp [kindOf_eq]

theorem kindOf_temp (h : c.wf = true) : kindOf c c.typeTemp = .tempReport := by
  have := Config.types_nodup h
  simp only [List.nodup_cons, List.mem_cons, not_or] at this
  rw [kindOf_eq, if_neg (Ne.symm this.1.1), if_pos rfl]

theorem kindOf_status (h : c.wf = true) : kindOf c c.typeStatus = .statusReport := by
  have := Config.types_nodup h
  simp only [List.nodup_cons, List.mem_cons, not_or] at this
  rw [kindOf_eq, if_neg (Ne.symm this.1.2.1), if_neg (Ne.symm this.2.1.1), if_pos rfl]

theorem kindOf_ack (h : c.wf = true) : kindOf c c.typeAck = .ack := by
  have := Config.types_nodup h
  simp only [List.nodup_cons, List.mem_cons, not_or] at this
  rw [kindOf_eq, if_neg (Ne.symm this.1.2.2.1), if_neg (Ne.symm this.2.1.2.1), if_neg (Ne.symm this.2.2.1.1),
    if_pos rfl]

theorem kindOf_other {t : Byte} (h : t ∉ [c.typeConnect, c.typeTemp, c.typeStatus, c.typeAck]) :
    kindOf c t = .unknown := by
  simp only [List.mem_cons, not_or] at h
  rw [kindOf_eq, if_neg h.1, if_neg h.2.1, if_neg h.2.2.1, if_neg h.2.2.2.1]

/-- No minimum is above the maximum (R6, R162). -/
theorem minLen_le (h : c.wf = true) (k : Kind) : minLen c k ≤ c.maxLen := by
  obtain ⟨h1, h2, h3, h4, h5⟩ := (c.wf_iff.1 h).2.2.1
  cases k <;> assumption

/-- A length byte that holds a length of at most `MAX_LEN` is that length. -/
theorem lengthByte_toNat (h : c.wf = true) {n : Nat} (hn : n ≤ c.maxLen) : (BitVec.ofNat 8 n : Byte).toNat = n := by
  have := Config.maxLen_le h
  simp only [BitVec.toNat_ofNat]
  omega

/-- The decoder finds a frame of legal length that bytes begin with, and leaves the rest. -/
theorem decodeFrame_frameBytes (h : c.wf = true) (t ck : Byte) (p rest : List Byte) (hp : p.length ≤ c.maxLen) :
    decodeFrame c (frameBytes c t p ck ++ rest) = .ok (frameInstr c t p ck, rest) := by
  have hn := lengthByte_toNat h hp
  simp [decodeFrame, frameBytes, hn, Nat.not_lt.2 hp]

end

end Sys2Proof
end

