-- ==== Sys2Proof/Laws/Memory.lean ====
section
/-! SUPPORT. The receive buffer: its cells, that every operation keeps its form, and the scan. -/

namespace Sys2Proof.Machine

/-- The cells' offsets are 0, 1, 2, …: strictly rising, none left out. -/
theorem Memory.cells_keys (m : Memory) : m.cells.map Prod.fst = List.range m.length := by
  simp only [Memory.cells, List.map_map]
  have : (Prod.fst ∘ fun x : Byte × Nat => (x.2, x.1)) = Prod.snd := rfl
  rw [this, List.zipIdx_map_snd, List.range_eq_range']

/-- Reading an offset is looking it up among the cells. -/
theorem Memory.mem_cells (m : Memory) (i : Nat) (b : Byte) : (i, b) ∈ m.cells ↔ m.read i = some b := by
  simp [Memory.cells, Memory.read, List.mem_map, List.mem_zipIdx_iff_getElem?]

theorem Memory.wf_iff (cap : Nat) (m : Memory) : Memory.wf cap m = true ↔ m.length ≤ cap := by simp [Memory.wf]

theorem Memory.wf_nil (cap : Nat) : Memory.wf cap [] = true := by simp [Memory.wf]

theorem Memory.wf_append {cap : Nat} {m : Memory} (h : m.length < cap) (b : Byte) :
    Memory.wf cap (m.append b) = true := by
  simp only [Memory.wf, Memory.append, List.length_append, List.length_singleton, decide_eq_true_eq]
  omega

theorem Memory.wf_advance {cap : Nat} {m : Memory} (h : Memory.wf cap m = true) (n : Nat) :
    Memory.wf cap (m.advance n) = true := by
  simp only [Memory.wf, Memory.advance, List.length_drop, decide_eq_true_eq] at *
  omega

theorem Memory.read_append_of_ne (m : Memory) (b : Byte) {i : Nat} (h : i ≠ m.length) :
    (m.append b).read i = m.read i := by
  rcases Nat.lt_or_ge i m.length with hi | hi
  · simp [Memory.append, Memory.read, List.getElem?_append_left hi]
  · simp only [Memory.append, Memory.read]
    rw [List.getElem?_eq_none (by simpa using by omega), List.getElem?_eq_none hi]

theorem Memory.read_append_self (m : Memory) (b : Byte) : (m.append b).read m.length = some b := by
  simp [Memory.append, Memory.read]

theorem Memory.read_advance (m : Memory) (n i : Nat) : (m.advance n).read i = m.read (n + i) := by
  simp [Memory.advance, Memory.read]

/-- What the scan does (R121): it takes away bytes that are not `START` and stops at the first that is. -/
theorem Memory.scan_spec (start : Byte) (m : Memory) :
    ∃ noise, m = noise ++ Memory.scan start m ∧ start ∉ noise ∧
      (Memory.scan start m = [] ∨ ∃ rest, Memory.scan start m = start :: rest) := by
  induction m with
  | nil => exact ⟨[], rfl, by simp, .inl rfl⟩
  | cons b m ih =>
    by_cases hb : b = start
    · exact ⟨[], by simp [Memory.scan, hb], by simp, .inr ⟨m, by simp [Memory.scan, hb]⟩⟩
    · obtain ⟨noise, hm, hn, he⟩ := ih
      refine ⟨b :: noise, ?_, ?_, ?_⟩
      · simp only [Memory.scan, if_neg hb, List.cons_append]
        rw [← hm]
      · simp [hn, Ne.symm hb]
      · simpa [Memory.scan, hb] using he

theorem Memory.scan_append_of_notMem {start : Byte} {noise : Memory} (h : start ∉ noise) (m : Memory) :
    Memory.scan start (noise ++ m) = Memory.scan start m := by
  induction noise with
  | nil => rfl
  | cons b noise ih =>
    simp only [List.mem_cons, not_or] at h
    simp [Memory.scan, Ne.symm h.1, ih h.2]

@[simp] theorem Memory.scan_start (start : Byte) (m : Memory) : Memory.scan start (start :: m) = start :: m := by
  simp [Memory.scan]

@[simp] theorem Memory.scan_nil (start : Byte) : Memory.scan start [] = [] := rfl

theorem Memory.scan_of_notMem {start : Byte} {m : Memory} (h : start ∉ m) : Memory.scan start m = [] := by
  simpa using Memory.scan_append_of_notMem h []

theorem Memory.scan_idem (start : Byte) (m : Memory) :
    Memory.scan start (Memory.scan start m) = Memory.scan start m := by
  obtain ⟨_, -, -, h | ⟨rest, h⟩⟩ := Memory.scan_spec start m <;> simp [h]

theorem Memory.scan_length_le (start : Byte) (m : Memory) : (Memory.scan start m).length ≤ m.length := by
  obtain ⟨noise, hm, -⟩ := Memory.scan_spec start m
  have := congrArg List.length hm
  simp only [List.length_append] at this
  omega

theorem Memory.wf_scan {cap : Nat} {m : Memory} (h : Memory.wf cap m = true) (start : Byte) :
    Memory.wf cap (Memory.scan start m) = true := by
  have := Memory.scan_length_le start m
  simp only [Memory.wf, decide_eq_true_eq] at *
  omega

end Sys2Proof.Machine
end

