-- ==== Sys2Proof/Laws/State.lean ====
section
/-! SUPPORT. One lemma for each field of `State` and each update of it, so that no later proof unfolds an update. -/

namespace Sys2Proof.Machine

@[simp] theorem State.advance_cfg (n : Nat) (s : State) : (s.advance n).cfg = s.cfg := rfl
@[simp] theorem State.advance_buf (n : Nat) (s : State) : (s.advance n).buf = s.buf.drop n := rfl
@[simp] theorem State.advance_res (n : Nat) (s : State) : (s.advance n).res = s.res := rfl
@[simp] theorem State.advance_reason (n : Nat) (s : State) : (s.advance n).reason = s.reason := rfl
@[simp] theorem State.advance_capture (n : Nat) (s : State) : (s.advance n).capture = s.capture := rfl
@[simp] theorem State.advance_ovf (n : Nat) (s : State) : (s.advance n).ovf = s.ovf := rfl
@[simp] theorem State.advance_txRes (n : Nat) (s : State) : (s.advance n).txRes = s.txRes := rfl
@[simp] theorem State.advance_transmit (n : Nat) (s : State) : (s.advance n).transmit = s.transmit := rfl
@[simp] theorem State.advance_scratch (n : Nat) (s : State) : (s.advance n).scratch = s.scratch := rfl
@[simp] theorem State.advance_port (n : Nat) (s : State) : (s.advance n).port = s.port := rfl
@[simp] theorem State.advance_response (n : Nat) (s : State) : (s.advance n).response = s.response := rfl

@[simp] theorem State.setOvf_cfg (s : State) : (s.setOvf).cfg = s.cfg := rfl
@[simp] theorem State.setOvf_buf (s : State) : (s.setOvf).buf = s.buf := rfl
@[simp] theorem State.setOvf_res (s : State) : (s.setOvf).res = s.res := rfl
@[simp] theorem State.setOvf_reason (s : State) : (s.setOvf).reason = s.reason := rfl
@[simp] theorem State.setOvf_capture (s : State) : (s.setOvf).capture = s.capture := rfl
@[simp] theorem State.setOvf_ovf (s : State) : (s.setOvf).ovf = true := rfl
@[simp] theorem State.setOvf_txRes (s : State) : (s.setOvf).txRes = s.txRes := rfl
@[simp] theorem State.setOvf_transmit (s : State) : (s.setOvf).transmit = s.transmit := rfl
@[simp] theorem State.setOvf_scratch (s : State) : (s.setOvf).scratch = s.scratch := rfl
@[simp] theorem State.setOvf_port (s : State) : (s.setOvf).port = s.port := rfl
@[simp] theorem State.setOvf_response (s : State) : (s.setOvf).response = s.response := rfl

@[simp] theorem State.respond_cfg (r : Response) (s : State) : (s.respond r).cfg = s.cfg := rfl
@[simp] theorem State.respond_buf (r : Response) (s : State) : (s.respond r).buf = s.buf := rfl
@[simp] theorem State.respond_res (r : Response) (s : State) : (s.respond r).res = s.res := rfl
@[simp] theorem State.respond_reason (r : Response) (s : State) : (s.respond r).reason = s.reason := rfl
@[simp] theorem State.respond_capture (r : Response) (s : State) : (s.respond r).capture = s.capture := rfl
@[simp] theorem State.respond_ovf (r : Response) (s : State) : (s.respond r).ovf = s.ovf := rfl
@[simp] theorem State.respond_txRes (r : Response) (s : State) : (s.respond r).txRes = s.txRes := rfl
@[simp] theorem State.respond_transmit (r : Response) (s : State) : (s.respond r).transmit = s.transmit := rfl
@[simp] theorem State.respond_scratch (r : Response) (s : State) : (s.respond r).scratch = s.scratch := rfl
@[simp] theorem State.respond_port (r : Response) (s : State) : (s.respond r).port = s.port := rfl
@[simp] theorem State.respond_response (r : Response) (s : State) : (s.respond r).response = some r := rfl

@[simp] theorem State.decoded_cfg (res : Res) (reason : Reason) (f : Option Capture) (s : State) : (s.decoded res reason f).cfg = s.cfg := rfl
@[simp] theorem State.decoded_buf (res : Res) (reason : Reason) (f : Option Capture) (s : State) : (s.decoded res reason f).buf = s.buf := rfl
@[simp] theorem State.decoded_res (res : Res) (reason : Reason) (f : Option Capture) (s : State) : (s.decoded res reason f).res = res := rfl
@[simp] theorem State.decoded_reason (res : Res) (reason : Reason) (f : Option Capture) (s : State) : (s.decoded res reason f).reason = reason := rfl
@[simp] theorem State.decoded_capture (res : Res) (reason : Reason) (f : Option Capture) (s : State) : (s.decoded res reason f).capture = f := rfl
@[simp] theorem State.decoded_ovf (res : Res) (reason : Reason) (f : Option Capture) (s : State) : (s.decoded res reason f).ovf = s.ovf := rfl
@[simp] theorem State.decoded_txRes (res : Res) (reason : Reason) (f : Option Capture) (s : State) : (s.decoded res reason f).txRes = s.txRes := rfl
@[simp] theorem State.decoded_transmit (res : Res) (reason : Reason) (f : Option Capture) (s : State) : (s.decoded res reason f).transmit = s.transmit := rfl
@[simp] theorem State.decoded_scratch (res : Res) (reason : Reason) (f : Option Capture) (s : State) : (s.decoded res reason f).scratch = s.scratch.endDecode := rfl
@[simp] theorem State.decoded_port (res : Res) (reason : Reason) (f : Option Capture) (s : State) : (s.decoded res reason f).port = s.port := rfl
@[simp] theorem State.decoded_response (res : Res) (reason : Reason) (f : Option Capture) (s : State) : (s.decoded res reason f).response = some (.decoded res reason f) := rfl

@[simp] theorem State.encoded_cfg (res : TxRes) (f : Option Transmit) (s : State) : (s.encoded res f).cfg = s.cfg := rfl
@[simp] theorem State.encoded_buf (res : TxRes) (f : Option Transmit) (s : State) : (s.encoded res f).buf = s.buf := rfl
@[simp] theorem State.encoded_res (res : TxRes) (f : Option Transmit) (s : State) : (s.encoded res f).res = s.res := rfl
@[simp] theorem State.encoded_reason (res : TxRes) (f : Option Transmit) (s : State) : (s.encoded res f).reason = s.reason := rfl
@[simp] theorem State.encoded_capture (res : TxRes) (f : Option Transmit) (s : State) : (s.encoded res f).capture = s.capture := rfl
@[simp] theorem State.encoded_ovf (res : TxRes) (f : Option Transmit) (s : State) : (s.encoded res f).ovf = s.ovf := rfl
@[simp] theorem State.encoded_txRes (res : TxRes) (f : Option Transmit) (s : State) : (s.encoded res f).txRes = res := rfl
@[simp] theorem State.encoded_transmit (res : TxRes) (f : Option Transmit) (s : State) : (s.encoded res f).transmit = f := rfl
@[simp] theorem State.encoded_scratch (res : TxRes) (f : Option Transmit) (s : State) : (s.encoded res f).scratch = s.scratch := rfl
@[simp] theorem State.encoded_port (res : TxRes) (f : Option Transmit) (s : State) : (s.encoded res f).port = s.port := rfl
@[simp] theorem State.encoded_response (res : TxRes) (f : Option Transmit) (s : State) : (s.encoded res f).response = some (.encoded res f) := rfl

@[simp] theorem State.endEncode_cfg (s : State) : (s.endEncode).cfg = s.cfg := rfl
@[simp] theorem State.endEncode_buf (s : State) : (s.endEncode).buf = s.buf := rfl
@[simp] theorem State.endEncode_res (s : State) : (s.endEncode).res = s.res := rfl
@[simp] theorem State.endEncode_reason (s : State) : (s.endEncode).reason = s.reason := rfl
@[simp] theorem State.endEncode_capture (s : State) : (s.endEncode).capture = s.capture := rfl
@[simp] theorem State.endEncode_ovf (s : State) : (s.endEncode).ovf = s.ovf := rfl
@[simp] theorem State.endEncode_txRes (s : State) : (s.endEncode).txRes = s.txRes := rfl
@[simp] theorem State.endEncode_transmit (s : State) : (s.endEncode).transmit = s.transmit := rfl
@[simp] theorem State.endEncode_scratch (s : State) : (s.endEncode).scratch = { s.scratch with tacc := none } := rfl
@[simp] theorem State.endEncode_port (s : State) : (s.endEncode).port = s.port := rfl
@[simp] theorem State.endEncode_response (s : State) : (s.endEncode).response = s.response := rfl

@[simp] theorem State.scan_cfg (s : State) : (s.scan).cfg = s.cfg := rfl
@[simp] theorem State.scan_buf (s : State) : (s.scan).buf = Memory.scan s.cfg.start s.buf := rfl
@[simp] theorem State.scan_res (s : State) : (s.scan).res = s.res := rfl
@[simp] theorem State.scan_reason (s : State) : (s.scan).reason = s.reason := rfl
@[simp] theorem State.scan_capture (s : State) : (s.scan).capture = s.capture := rfl
@[simp] theorem State.scan_ovf (s : State) : (s.scan).ovf = s.ovf := rfl
@[simp] theorem State.scan_txRes (s : State) : (s.scan).txRes = s.txRes := rfl
@[simp] theorem State.scan_transmit (s : State) : (s.scan).transmit = s.transmit := rfl
@[simp] theorem State.scan_scratch (s : State) : (s.scan).scratch = s.scratch := rfl
@[simp] theorem State.scan_port (s : State) : (s.scan).port = s.port := rfl
@[simp] theorem State.scan_response (s : State) : (s.scan).response = s.response := rfl

@[simp] theorem State.enterDecode_cfg (s : State) : (s.enterDecode).cfg = s.cfg := rfl
@[simp] theorem State.enterDecode_buf (s : State) : (s.enterDecode).buf = s.buf := rfl
@[simp] theorem State.enterDecode_res (s : State) : (s.enterDecode).res = s.res := rfl
@[simp] theorem State.enterDecode_reason (s : State) : (s.enterDecode).reason = s.reason := rfl
@[simp] theorem State.enterDecode_capture (s : State) : (s.enterDecode).capture = none := rfl
@[simp] theorem State.enterDecode_ovf (s : State) : (s.enterDecode).ovf = s.ovf := rfl
@[simp] theorem State.enterDecode_txRes (s : State) : (s.enterDecode).txRes = s.txRes := rfl
@[simp] theorem State.enterDecode_transmit (s : State) : (s.enterDecode).transmit = s.transmit := rfl
@[simp] theorem State.enterDecode_scratch (s : State) : (s.enterDecode).scratch = s.scratch := rfl
@[simp] theorem State.enterDecode_port (s : State) : (s.enterDecode).port = s.port := rfl
@[simp] theorem State.enterDecode_response (s : State) : (s.enterDecode).response = s.response := rfl

@[simp] theorem State.taken_cfg (s : State) : (s.taken).cfg = s.cfg := rfl
@[simp] theorem State.taken_buf (s : State) : (s.taken).buf = s.buf := rfl
@[simp] theorem State.taken_res (s : State) : (s.taken).res = s.res := rfl
@[simp] theorem State.taken_reason (s : State) : (s.taken).reason = s.reason := rfl
@[simp] theorem State.taken_capture (s : State) : (s.taken).capture = s.capture := rfl
@[simp] theorem State.taken_ovf (s : State) : (s.taken).ovf = s.ovf := rfl
@[simp] theorem State.taken_txRes (s : State) : (s.taken).txRes = s.txRes := rfl
@[simp] theorem State.taken_transmit (s : State) : (s.taken).transmit = s.transmit := rfl
@[simp] theorem State.taken_scratch (s : State) : (s.taken).scratch = s.scratch := rfl
@[simp] theorem State.taken_port (s : State) : (s.taken).port = s.port.tail := rfl
@[simp] theorem State.taken_response (s : State) : (s.taken).response = s.response := rfl

@[simp] theorem State.present_cfg (t : Transaction) (s : State) : (s.present t).cfg = s.cfg := rfl
@[simp] theorem State.present_buf (t : Transaction) (s : State) : (s.present t).buf = s.buf := rfl
@[simp] theorem State.present_res (t : Transaction) (s : State) : (s.present t).res = s.res := rfl
@[simp] theorem State.present_reason (t : Transaction) (s : State) : (s.present t).reason = s.reason := rfl
@[simp] theorem State.present_capture (t : Transaction) (s : State) : (s.present t).capture = s.capture := rfl
@[simp] theorem State.present_ovf (t : Transaction) (s : State) : (s.present t).ovf = s.ovf := rfl
@[simp] theorem State.present_txRes (t : Transaction) (s : State) : (s.present t).txRes = s.txRes := rfl
@[simp] theorem State.present_transmit (t : Transaction) (s : State) : (s.present t).transmit = s.transmit := rfl
@[simp] theorem State.present_scratch (t : Transaction) (s : State) : (s.present t).scratch = s.scratch := rfl
@[simp] theorem State.present_port (t : Transaction) (s : State) : (s.present t).port = [t] :: s.port := rfl
@[simp] theorem State.present_response (t : Transaction) (s : State) : (s.present t).response = s.response := rfl

@[simp] theorem State.resetWith_cfg (c : Config) : (State.resetWith c).cfg = c := rfl
@[simp] theorem State.resetWith_buf (c : Config) : (State.resetWith c).buf = [] := rfl
@[simp] theorem State.resetWith_res (c : Config) : (State.resetWith c).res = .none := rfl
@[simp] theorem State.resetWith_reason (c : Config) : (State.resetWith c).reason = .none := rfl
@[simp] theorem State.resetWith_capture (c : Config) : (State.resetWith c).capture = none := rfl
@[simp] theorem State.resetWith_ovf (c : Config) : (State.resetWith c).ovf = false := rfl
@[simp] theorem State.resetWith_txRes (c : Config) : (State.resetWith c).txRes = .none := rfl
@[simp] theorem State.resetWith_transmit (c : Config) : (State.resetWith c).transmit = none := rfl
@[simp] theorem State.resetWith_scratch (c : Config) : (State.resetWith c).scratch = Scratch.empty := rfl
@[simp] theorem State.resetWith_port (c : Config) : (State.resetWith c).port = [] := rfl
@[simp] theorem State.resetWith_response (c : Config) : (State.resetWith c).response = none := rfl

@[simp] theorem Scratch.endDecode_empty : Scratch.empty.endDecode = Scratch.empty := rfl

theorem State.raise_incomplete (s : State) : s.raise .incomplete = s.decoded .incomplete .none none := rfl
theorem State.raise_invalid (r : Reason) (s : State) :
    s.raise (.invalid r) = (s.advance 1).decoded .invalid r none := rfl
theorem State.raise_dropped (s : State) : s.raise .dropped = s.setOvf.respond .dropped := rfl
theorem State.raise_errLen (s : State) : s.raise .errLen = s.encoded .errLen none := rfl

@[simp] theorem withReg_some {α : Type} (v : α) (k : α → Out) : withReg (some v) k = k v := rfl

theorem withByte_of_read {view : Memory} {i : Nat} {b : Byte} (h : view[i]? = some b) (k : Byte → Out) :
    withByte view i k = k b := by simp [withByte, Memory.read, h]

theorem withBytes_of_le {view : Memory} {i n : Nat} (h : i + n ≤ view.length) (k : List Byte → Out) :
    withBytes view i n k = k ((view.drop i).take n) := by simp [withBytes, Memory.memRead, h]

end Sys2Proof.Machine
end

