-- ==== Sys2Proof/Laws/Parser.lean ====
section
/-! SUPPORT. All that the parser can do, said once: its phases amount to one verdict on the bytes at the cursor, which
alone decides the next state (41_parser.md R120). -/

namespace Sys2Proof.Machine

/-- What the parser finds at the cursor. -/
inductive Verdict
  | incomplete
  | reject (reason : Reason)
  | accept (f : Capture)
  deriving DecidableEq, Repr

/-- The parser's tests, first match wins (R120, R189), on the bytes from the cursor on. -/
def verdict (c : Config) : Memory → Verdict
  | b :: t :: n :: rest =>
    if c.maxLen < n.toNat then .reject .lenRange
    else match rest[n.toNat]? with
      | none => .incomplete
      | some ck =>
        if c.fold (sum8 ([b, t, n] ++ rest.take n.toNat)) ≠ ck then .reject .badChecksum
        else if n.toNat < minLen c (kindOf c t) then .reject .shortPayload
        else .accept ⟨b, t, n, rest.take n.toNat, ck, kindOf c t⟩
  | _ => .incomplete

/-- The state a verdict leads to (R130, R131, R181). -/
def State.settle (s : State) : Verdict → State
  | .incomplete => s.raise .incomplete
  | .reject reason => s.raise (.invalid reason)
  | .accept f => (s.advance (f.fLen.toNat + 4)).decoded .frame .none (some f)

theorem need_toNat (n : Byte) : (n.setWidth 9 + 4 : Word9).toNat = n.toNat + 4 := by
  have := n.isLt
  rw [BitVec.toNat_add, BitVec.toNat_setWidth, show BitVec.toNat (4 : Word9) = 4 from rfl]
  omega

/-- The parser ends in the next state its verdict leads to, from every state. -/
theorem parse_eq (view : Memory) (s : State) : parse view s = .next (s.settle (verdict s.cfg view)) := by
  match view with
  | [] => rfl
  | [_] => rfl
  | [_, _] => rfl
  | b :: t :: n :: rest =>
    have hn := need_toNat n
    have hlen : (b :: t :: n :: rest).length = rest.length + 3 := rfl
    simp only [parse, hlen, verdict, latch]
    rw [if_neg (by omega), if_neg (by omega), withByte_of_read (b := t) rfl, withByte_of_read (b := n) rfl]
    simp only [lengthDispatch, withReg_some]
    split
    · rfl
    · simp only [awaitBody, withReg_some, hlen, hn]
      rcases Nat.lt_or_ge n.toNat rest.length with hr | hr
      · rw [if_neg (by omega), List.getElem?_eq_getElem hr]
        simp only [captureCk, withReg_some, hn]
        rw [withByte_of_read (b := rest[n.toNat]) (by simp [hr])]
        simp only [validate, withReg_some, hn]
        rw [withBytes_of_le (by simp; omega)]
        have ht : ((b :: t :: n :: rest).drop 0).take (n.toNat + 4 - 1) = [b, t, n] ++ rest.take n.toNat := by
          simp
        simp only [ht]
        split
        · rfl
        · simp only [dispatch, withReg_some]
          split
          · rfl
          · simp only [accept, withReg_some]
            rw [withByte_of_read (b := b) rfl, withBytes_of_le (by simp; omega)]
            simp only [State.settle, State.advance, List.drop_succ_cons, List.drop_zero, hn]
            rfl
      · rw [if_pos (by omega), List.getElem?_eq_none hr]
        rfl

/-- `DECODE_NEXT` ends in the next state that the verdict on the scanned buffer leads to. -/
theorem execDecodeNext_eq (s : State) :
    execDecodeNext s = .next (s.enterDecode.scan.settle (verdict s.cfg (Memory.scan s.cfg.start s.buf))) := by
  simp [execDecodeNext, parse_eq]

/-- A frame row ends in the next state that the verdict on its bytes leads to. -/
theorem runFrame_eq (t : Byte) (p : List Byte) (ck : Byte) (s : State) :
    runFrame t p ck s = .next (s.enterDecode.settle (verdict s.cfg (frameBytes s.cfg t p ck))) := by
  simp [runFrame, parse_eq]

theorem verdict_nil (c : Config) : verdict c [] = .incomplete := rfl

theorem verdict_accept_start {c : Config} {view : Memory} {f : Capture} (h : verdict c view = .accept f) :
    ∃ rest, view = f.fStart :: f.fType :: f.fLen :: rest ∧ f.fLen.toNat ≤ c.maxLen ∧
      rest[f.fLen.toNat]? = some f.fCk ∧ f.fPay = rest.take f.fLen.toNat ∧
      c.fold (sum8 ([f.fStart, f.fType, f.fLen] ++ f.fPay)) = f.fCk ∧ f.fKind = kindOf c f.fType ∧
      minLen c f.fKind ≤ f.fLen.toNat := by
  match view with
  | [] | [_] | [_, _] => cases h
  | b :: t :: n :: rest =>
    simp only [verdict] at h
    split at h
    · cases h
    split at h
    · cases h
    next ck hck =>
    split at h
    · cases h
    split at h
    · cases h
    next h1 _ h2 h3 =>
    cases h
    exact ⟨rest, rfl, Nat.not_lt.1 h1, hck, rfl, by simpa using h2, rfl, Nat.not_lt.1 h3⟩

end Sys2Proof.Machine
end

