-- ==== Sys2Proof/Laws/Exec.lean ====
section
/-! SUPPORT. What each meaning answers, in one equation, and the steps around it. -/

namespace Sys2Proof.Machine

theorem exec_nop (s : State) : exec .nop s = .next (s.respond .done) := rfl

theorem exec_reset (s : State) :
    exec .reset s = .next ({ State.resetWith s.cfg with port := s.port }.respond .done) := rfl

theorem exec_push_room (b : Byte) {s : State} (h : s.buf.length < s.cfg.bufCap) :
    exec (.push b) s = .next ({ s with buf := s.buf ++ [b] }.respond .pushed) := by
  simp [exec, execPush, h, Memory.append]

theorem exec_push_full (b : Byte) {s : State} (h : ¬ s.buf.length < s.cfg.bufCap) :
    exec (.push b) s = .next (s.setOvf.respond .dropped) := by
  simp [exec, execPush, h, State.raise]

theorem exec_decodeNext (s : State) :
    exec .decodeNext s = .next (s.enterDecode.scan.settle (verdict s.cfg (Memory.scan s.cfg.start s.buf))) :=
  execDecodeNext_eq s

theorem exec_encode_ok (t : Byte) {p : List Byte} {s : State} (h : p.length ≤ s.cfg.maxLen) :
    exec (.encode t p) s = .next (s.endEncode.encoded .ok (some
      { txLen := BitVec.ofNat 9 p.length + 4
        tx := frameBytes s.cfg t p (checksum s.cfg ([s.cfg.start, t, BitVec.ofNat 8 p.length] ++ p)) })) := by
  simp only [exec, execEncode, if_neg (Nat.not_lt.2 h), withReg_some, checksum, ← accumulate_header]
  rfl

theorem exec_encode_long (t : Byte) {p : List Byte} {s : State} (h : s.cfg.maxLen < p.length) :
    exec (.encode t p) s = .next (s.encoded .errLen none) := by
  simp [exec, execEncode, h, State.raise]

/-- A step with one command presented runs that command. -/
theorem step_command {s : State} {i : Instr} (hc : s.cfg.wf = true) (h : s.nowPresented = .command i) :
    step s = exec i s.taken := by
  simp [step, hc, h]

/-- A step that goes on has taken nothing, or has run the one command presented. -/
theorem step_next_cases {s t : State} (h : step s = .next t) :
    s.cfg.wf = true ∧
      ((s.nowPresented = .idle ∧ t = s.taken) ∨ ∃ i, s.nowPresented = .command i ∧ exec i s.taken = .next t) := by
  simp only [step] at h
  split at h
  · next hc =>
    refine ⟨hc, ?_⟩
    split at h
    · next hp => exact .inl ⟨hp, by injection h with h; exact h.symm⟩
    · next i hp => exact .inr ⟨i, hp, h⟩
    · cases h
  · cases h

end Sys2Proof.Machine
end

