-- ==== Sys2Proof/Laws/Operands.lean ====
section
/-! SUPPORT. The host's reads: the three ways one ends, each under the condition that decides it. -/

namespace Sys2Proof.Machine

theorem State.hostRead_value {s : State} {r : Reg} {v : Nat} (hc : s.cfg.wf = true) (h : s.regValue r = some v) :
    s.hostRead r = .ok v := by
  simp [State.hostRead, hc, h]

theorem State.hostRead_noValue {s : State} {r : Reg} (hc : s.cfg.wf = true) (h : s.regValue r = none) :
    s.hostRead r = .error .noValue := by
  simp [State.hostRead, hc, h]

theorem State.hostRead_illFormed {s : State} (hc : s.cfg.wf = false) (r : Reg) :
    s.hostRead r = .error .illFormedConfig := by
  simp [State.hostRead, hc]

/-- A read answers a value exactly when the configuration is well-formed and the register holds that value. -/
theorem State.hostRead_ok_iff {s : State} {r : Reg} {v : Nat} :
    s.hostRead r = .ok v ↔ s.cfg.wf = true ∧ s.regValue r = some v := by
  cases hc : s.cfg.wf <;> cases h : s.regValue r <;> simp [State.hostRead, hc, h]

end Sys2Proof.Machine
end

