-- ==== Sys2Proof/Laws/PerInstr.lean ====
section
/-! SUPPORT. Decoding the encoding of a well-formed instruction gives it back, one lemma for each constructor. -/

namespace Sys2Proof.Laws.DecodeEncode

def Statement (i : Instr) : Prop := ∀ c : Config, c.wf = true → i.wf c = true → decode c (encode c i) = .ok i

theorem nop : Statement .nop := fun _ _ _ => rfl

theorem reset : Statement .reset := fun _ _ _ => rfl

theorem push (b : Byte) : Statement (.push b) := fun _ _ _ => rfl

theorem decodeNext : Statement .decodeNext := fun _ _ _ => rfl

theorem encode (t : Byte) (p : List Byte) : Statement (.encode t p) := fun _ _ _ => rfl

theorem decode_frame {c : Config} (h : c.wf = true) (t ck : Byte) (p : List Byte) (hp : p.length ≤ c.maxLen) :
    decode c (.frame (frameBytes c t p ck)) = .ok (frameInstr c t p ck) := by
  have := decodeFrame_frameBytes h t ck p [] hp
  rw [List.append_nil] at this
  simp [decode, this]

theorem connect (p : List Byte) (ck : Byte) : Statement (.connect p ck) := by
  intro c h hi
  rw [Sys2Proof.encode, decode_frame h _ _ _ (of_decide_eq_true hi), frameInstr, kindOf_connect]

theorem tempReport (p : List Byte) (ck : Byte) : Statement (.tempReport p ck) := by
  intro c h hi
  rw [Sys2Proof.encode, decode_frame h _ _ _ (of_decide_eq_true hi), frameInstr, kindOf_temp h]

theorem statusReport (p : List Byte) (ck : Byte) : Statement (.statusReport p ck) := by
  intro c h hi
  rw [Sys2Proof.encode, decode_frame h _ _ _ (of_decide_eq_true hi), frameInstr, kindOf_status h]

theorem ack (p : List Byte) (ck : Byte) : Statement (.ack p ck) := by
  intro c h hi
  rw [Sys2Proof.encode, decode_frame h _ _ _ (of_decide_eq_true hi), frameInstr, kindOf_ack h]

theorem unknown (t : Byte) (p : List Byte) (ck : Byte) : Statement (.unknown t p ck) := by
  intro c h hi
  simp only [Instr.wf, Bool.and_eq_true, decide_eq_true_eq] at hi
  rw [Sys2Proof.encode, decode_frame h _ _ _ hi.2, frameInstr, kindOf_other hi.1]

end Sys2Proof.Laws.DecodeEncode
end

