-- ==== Sys2Proof/Laws/Results.lean ====
section
/-! SUPPORT. `DECODE_NEXT` and the frame rows in the terms of the claims: the verdict on the bytes of a frame, and the
state each verdict leads to. -/

namespace Sys2Proof.Machine

/-- The state after a verdict on `view`, in the terms of the claims. -/
def State.after (s : State) (view : Memory) : Verdict → State
  | .incomplete => s.withResult view .incomplete .none none
  | .reject reason => s.withResult (view.drop 1) .invalid reason none
  | .accept f => s.withResult (view.drop (f.fLen.toNat + 4)) .frame .none (some f)

theorem decodeNext_after (s : State) :
    exec .decodeNext s = .next (s.after (Memory.scan s.cfg.start s.buf)
      (verdict s.cfg (Memory.scan s.cfg.start s.buf))) := by
  rw [exec_decodeNext]
  cases verdict s.cfg (Memory.scan s.cfg.start s.buf) <;> rfl

theorem runFrame_after (t : Byte) (p : List Byte) (ck : Byte) (s : State) :
    runFrame t p ck s = .next (s.after s.buf (verdict s.cfg (frameBytes s.cfg t p ck))) := by
  rw [runFrame_eq]
  cases verdict s.cfg (frameBytes s.cfg t p ck) <;> rfl

/-- Each frame row is the parser on the bytes of its fields. -/
theorem exec_frame {s : State} {i : Instr} {k : Kind} {t : Byte} {p : List Byte} {ck : Byte}
    (h : frameFields s.cfg i = some (k, t, p, ck)) : exec i s = runFrame t p ck s := by
  cases i <;> simp only [frameFields, reduceCtorEq, Option.some.injEq, Prod.mk.injEq] at h <;>
    obtain ⟨-, rfl, rfl, rfl⟩ := h <;> rfl

/-- The kind in a frame row's fields is the kind of its type byte. -/
theorem frameFields_kind {c : Config} (hc : c.wf = true) {i : Instr} (hi : i.wf c = true) {k : Kind} {t : Byte}
    {p : List Byte} {ck : Byte} (h : frameFields c i = some (k, t, p, ck)) :
    k = kindOf c t ∧ p.length ≤ c.maxLen := by
  cases i <;> simp only [frameFields, reduceCtorEq, Option.some.injEq, Prod.mk.injEq] at h <;>
    obtain ⟨rfl, rfl, rfl, rfl⟩ := h
  · exact ⟨(kindOf_connect c).symm, of_decide_eq_true hi⟩
  · exact ⟨(kindOf_temp hc).symm, of_decide_eq_true hi⟩
  · exact ⟨(kindOf_status hc).symm, of_decide_eq_true hi⟩
  · exact ⟨(kindOf_ack hc).symm, of_decide_eq_true hi⟩
  · simp only [Instr.wf, Bool.and_eq_true, decide_eq_true_eq] at hi
    exact ⟨(kindOf_other hi.1).symm, hi.2⟩

/-- The verdict on bytes that begin with a whole frame of legal length depends on that frame alone. -/
theorem verdict_frame {c : Config} (hc : c.wf = true) (t : Byte) (p : List Byte) (ck : Byte) (rest : List Byte)
    (hp : p.length ≤ c.maxLen) :
    verdict c (frameBytes c t p ck ++ rest) =
      if checksum c (summedBytes c t p) ≠ ck then .reject .badChecksum
      else if p.length < minLen c (kindOf c t) then .reject .shortPayload
      else .accept (captureOf c (kindOf c t) t p ck) := by
  have hn := lengthByte_toNat hc hp
  have hb : frameBytes c t p ck ++ rest = c.start :: t :: BitVec.ofNat 8 p.length :: (p ++ ck :: rest) := by
    simp [frameBytes]
  rw [hb, verdict, hn, if_neg (Nat.not_lt.2 hp), List.getElem?_append_right (Nat.le_refl _)]
  simp only [Nat.sub_self, List.getElem?_cons_zero, List.take_left]
  rfl

theorem frameBytes_start (c : Config) (t : Byte) (p : List Byte) (ck : Byte) (rest : List Byte) :
    Memory.scan c.start (frameBytes c t p ck ++ rest) = frameBytes c t p ck ++ rest := by
  simp [frameBytes]

@[simp] theorem frameBytes_length (c : Config) (t : Byte) (p : List Byte) (ck : Byte) :
    (frameBytes c t p ck).length = p.length + 4 := by
  simp [frameBytes]

end Sys2Proof.Machine
end

