-- ==== Sys2Proof/Laws/Ring.lean ====
section
/-! SUPPORT. The ring realisation: its ranges in words, and the length of the buffer it holds. -/

namespace Sys2Proof.Machine

theorem Ring.wf_iff (cap : Nat) (r : Ring) : r.wf cap = true ↔ r.mem.length = cap ∧ r.rp < cap ∧ r.cnt ≤ cap := by
  simp [Ring.wf, and_assoc]

@[simp] theorem Ring.toBuf_length (cap : Nat) (r : Ring) : (r.toBuf cap).length = r.cnt := by simp [Ring.toBuf]

/-- The byte at an offset is the one in the offset's slot. -/
theorem Ring.toBuf_read (cap : Nat) (r : Ring) {i : Nat} (h : i < r.cnt) :
    (r.toBuf cap).read i = some (r.mem.getD (r.slot cap i) 0) := by
  simp [Ring.toBuf, Memory.read, List.getElem?_range h]

end Sys2Proof.Machine
end

