-- ==== Sys2Proof/Laws/Script.lean ====
section
/-! SUPPORT. Sequences of commands: one step of `runScript`, `drain` and the parser that puts bytes back, and what more
bytes behind the buffer change, which is nothing once a candidate is decided. -/

namespace Sys2Proof.Machine

theorem runScript_next {ex : Instr → State → Out} {i : Instr} {s t : State} (h : ex i s = .next t)
    (rest : List Instr) :
    runScript ex (i :: rest) s = (runScript ex rest t).map fun r => (t.response.toList ++ r.1, r.2) := by
  simp [runScript, h]

/-- A script that runs has run its first command and then the rest. -/
theorem runScript_cons_cases {ex : Instr → State → Out} {i : Instr} {rest : List Instr} {s u : State}
    {rs : List Response} (h : runScript ex (i :: rest) s = some (rs, u)) :
    ∃ t rs', ex i s = .next t ∧ runScript ex rest t = some (rs', u) ∧ rs = t.response.toList ++ rs' := by
  rw [runScript] at h
  split at h
  · next t ht =>
    obtain ⟨⟨rs', u'⟩, h1, h2⟩ := Option.map_eq_some_iff.1 h
    cases h2
    exact ⟨t, rs', ht, h1, rfl⟩
  · cases h
  · cases h

theorem consumedAlong_next {i : Instr} {s t : State} (h : exec i s = .next t) (rest : List Instr) :
    consumedAlong (i :: rest) s = consumedBy i s t ++ consumedAlong rest t := by
  simp [consumedAlong, h]

theorem keptAlong_next {i : Instr} {s t : State} (h : exec i s = .next t) (rest : List Instr) :
    keptAlong (i :: rest) s = keptBy i s ++ keptAlong rest t := by
  simp [keptAlong, h]

theorem pushedBytes_cons (i : Instr) (rest : List Instr) : pushedBytes (i :: rest) = pushedBytes [i] ++ pushedBytes rest :=
  List.filterMap_append (l := [i])

/-- The scan is a drop of the bytes it consumes. -/
theorem Memory.drop_scanned (start : Byte) (m : Memory) : m.drop (Memory.scanned start m) = Memory.scan start m := by
  obtain ⟨noise, hm, -⟩ := Memory.scan_spec start m
  have hl := congrArg List.length hm
  rw [List.length_append] at hl
  have : Memory.scanned start m = noise.length := by simp only [Memory.scanned]; omega
  rw [this]
  conv_lhs => rw [hm]
  rw [List.drop_left]

/-- What the verdict leaves of the bytes it is on: all but those its result takes. -/
theorem State.after_buf (s : State) (view : Memory) (v : Verdict) :
    (s.after view v).buf = view.drop (s.after view v).endAdvance := by
  cases v <;> rfl

theorem isReception_cons {i : Instr} {rest : List Instr} (h : isReception (i :: rest) = true) :
    (i = .decodeNext ∨ ∃ b, i = .push b) ∧ isReception rest = true := by
  simp only [isReception, List.all_cons, Bool.and_eq_true] at h
  refine ⟨?_, h.2⟩
  have := h.1
  cases i <;> simp_all

theorem drain_stop {s t : State} (h : exec .decodeNext s = .next t) (hr : t.res = .incomplete) (fuel : Nat) :
    drain (fuel + 1) s = some (t.response.toList, t) := by
  simp [drain, h, hr]

theorem drain_go {s t : State} (h : exec .decodeNext s = .next t) (hr : t.res ≠ .incomplete) (fuel : Nat) :
    drain (fuel + 1) s = (drain fuel t).map fun r => (t.response.toList ++ r.1, r.2) := by
  simp [drain, h, hr]

theorem execPutBack_incomplete {s t : State} (h : exec .decodeNext s = .next t) (hr : t.res = .incomplete) :
    execPutBack .decodeNext s = .next { t with buf := s.buf } := by
  have : execDecodeNext s = .next t := h
  simp [execPutBack, execDecodePutBack, this, hr]

theorem execPutBack_decided {s t : State} (h : exec .decodeNext s = .next t) (hr : t.res ≠ .incomplete) :
    execPutBack .decodeNext s = .next t := by
  have : execDecodeNext s = .next t := h
  simp [execPutBack, execDecodePutBack, this, hr]

theorem execPutBack_push (b : Byte) (s : State) : execPutBack (.push b) s = exec (.push b) s := by
  simp [execPutBack]

/-- More bytes behind a decided candidate do not change the verdict. -/
theorem verdict_append {c : Config} {view : Memory} (h : verdict c view ≠ .incomplete) (more : Memory) :
    verdict c (view ++ more) = verdict c view := by
  match view with
  | [] | [_] | [_, _] => exact absurd rfl h
  | b :: t :: n :: rest =>
    simp only [verdict, List.cons_append] at *
    split
    · rfl
    · next hn =>
      rw [if_neg hn] at h
      cases hc : rest[n.toNat]? with
      | none => simp [hc] at h
      | some ck =>
        obtain ⟨hl, -⟩ := List.getElem?_eq_some_iff.1 hc
        rw [List.getElem?_append_left hl, hc, List.take_append_of_le_length (Nat.le_of_lt hl)]

/-- Scanning early and scanning late come to the same. -/
theorem Memory.scan_append_scan (start : Byte) (m more : Memory) :
    Memory.scan start (Memory.scan start m ++ more) = Memory.scan start (m ++ more) := by
  obtain ⟨noise, hm, hn, -⟩ := Memory.scan_spec start m
  conv_rhs => rw [hm, List.append_assoc]
  rw [Memory.scan_append_of_notMem hn]

theorem Memory.scan_append_of_ne_nil {start : Byte} {m : Memory} (h : Memory.scan start m ≠ []) (more : Memory) :
    Memory.scan start (m ++ more) = Memory.scan start m ++ more := by
  rw [← Memory.scan_append_scan]
  obtain ⟨_, -, -, h1 | ⟨rest, h1⟩⟩ := Memory.scan_spec start m
  · exact absurd h1 h
  · rw [h1, List.cons_append, Memory.scan_start]

theorem verdict_reject_length {c : Config} {view : Memory} {r : Reason} (h : verdict c view = .reject r) :
    1 ≤ view.length := by
  cases view with
  | nil => cases h
  | cons => simp

theorem verdict_accept_length {c : Config} {view : Memory} {f : Capture} (h : verdict c view = .accept f) :
    f.fLen.toNat + 4 ≤ view.length := by
  obtain ⟨rest, rfl, -, h3, -⟩ := verdict_accept_start h
  obtain ⟨hl, -⟩ := List.getElem?_eq_some_iff.1 h3
  simp only [List.length_cons]
  omega

end Sys2Proof.Machine
end

