-- ==== Sys2Proof/Tests/Slice0.lean ====
section
/-! SUPPORT. Tests: ill-formed terms that the checks refuse, words written out from the spec's encodings, the spec's
vectors (95_test_vectors.md, named V-..) on one command each, and for every obligation with hypotheses a witness that
meets them. -/

namespace Sys2Proof.Tests

open Sys2Proof Sys2Proof.Machine

-- One theorem after another: side by side, the kernel's evaluations ask for more threads than a sandbox gives.
set_option Elab.async false

/-! ## Helpers -/

/-- The two configurations of 92_eei_decisions.md D23, by short names. -/
abbrev ref : Config := Config.refcfg
abbrev alt : Config := Config.altcfg

/-- A block after reset with these bytes in `buf`. -/
def holding (c : Config) (bytes : List Byte) : State := { State.resetWith c with buf := bytes }

/-- What `DECODE_NEXT` leaves of a block: `RES`, `REASON`, the kind, type, payload and checksum byte captured, `buf`. -/
structure Seen where
  res : Res
  reason : Reason
  frame : Option (Kind × Byte × List Byte × Byte)
  buf : List Byte
  deriving DecidableEq, Repr

/-- That, of an outcome; none of a stop. -/
def seen : Out → Option Seen
  | .next t => some ⟨t.res, t.reason, t.capture.map fun f => (f.fKind, f.fType, f.fPay, f.fCk), t.buf⟩
  | .fault _ => none
  | .refused _ => none

/-- `DECODE` on these bytes. -/
def decodes (c : Config) (bytes : List Byte) : Option Seen := seen (exec .decodeNext (holding c bytes))

/-- The state an outcome leads to, a block after reset where it stops. -/
def nextOf (o : Out) : State :=
  match o with
  | .next t => t
  | .fault _ => State.reset
  | .refused _ => State.reset

/-- A block in use under `ALTCFG`: a full buffer with `OVF` set, a captured `ACK` frame, an encoded `TEMP_REPORT`. -/
def busy : State :=
  { State.resetWith alt with
    buf := List.replicate 36 0
    res := .frame
    capture := some ⟨0xFC, 0x04, 0, [], 0xFC, .ack⟩
    ovf := true
    txRes := .ok
    transmit := some ⟨5, [0xFC, 0x02, 0x01, 0x15, 0xE8]⟩
    response := some .dropped }

/-- `busy` with these commands, in the numbers of R84, presented one after another. -/
def asked (code : BitVec 3) (operands : List Byte) : State := { busy with port := [[⟨code, operands⟩]] }

/-! ## Smoke: what the checks refuse -/

theorem test_refcfg_wf : ref.wf = true := by decide +kernel
theorem test_altcfg_wf : alt.wf = true := by decide +kernel

/-- R6, a fold that is no bijection. -/
theorem test_cfg_constant_fold_refused : ({ ref with ckFold := foldTable fun _ => 0 } : Config).wf = false := by
  decide +kernel

/-- R6, two equal type bytes, each pair of neighbours and the outermost. -/
theorem test_cfg_equal_types_refused :
    ({ ref with typeTemp := ref.typeConnect } : Config).wf = false ∧
    ({ ref with typeStatus := ref.typeTemp } : Config).wf = false ∧
    ({ ref with typeAck := ref.typeStatus } : Config).wf = false ∧
    ({ ref with typeAck := ref.typeConnect } : Config).wf = false := by decide +kernel

/-- R6, each minimum above `MAX_LEN`. -/
theorem test_cfg_minimum_above_maximum_refused :
    ({ alt with minConnect := 33 } : Config).wf = false ∧ ({ alt with minTemp := 33 } : Config).wf = false ∧
    ({ alt with minStatus := 33 } : Config).wf = false ∧ ({ alt with minAck := 33 } : Config).wf = false ∧
    ({ alt with minUnknown := 33 } : Config).wf = false ∧ ({ alt with minUnknown := 32 } : Config).wf = true := by
  decide +kernel

/-- R6, `MAX_LEN` above 255. -/
theorem test_cfg_maximum_above_255_refused : ({ ref with maxLen := 256 } : Config).wf = false := by decide +kernel

/-- R6, a buffer too small for the longest frame, at the boundary. -/
theorem test_cfg_small_buffer_refused :
    ({ alt with bufCap := 35 } : Config).wf = false ∧ ({ alt with bufCap := 36 } : Config).wf = true := by
  decide +kernel

/-- A frame row with one payload byte too many, each kind. -/
theorem test_wf_overlong_payload_refused :
    (Instr.connect (List.replicate 33 0) 0).wf alt = false ∧
    (Instr.tempReport (List.replicate 33 0) 0).wf alt = false ∧
    (Instr.statusReport (List.replicate 33 0) 0).wf alt = false ∧
    (Instr.ack (List.replicate 33 0) 0).wf alt = false ∧
    (Instr.unknown 0x7E (List.replicate 33 0) 0).wf alt = false ∧
    (Instr.unknown 0x7E (List.replicate 32 0) 0).wf alt = true := by decide +kernel

/-- A frame of kind `UNKNOWN` with the type byte of another kind, each. -/
theorem test_wf_unknown_of_a_known_type_refused :
    (Instr.unknown 1 [] 0).wf ref = false ∧ (Instr.unknown 2 [] 0).wf ref = false ∧
    (Instr.unknown 3 [] 0).wf ref = false ∧ (Instr.unknown 4 [] 0).wf ref = false ∧
    (Instr.unknown 5 [] 0).wf ref = true := by decide +kernel

/-! ## Words written out -/

/-- R84, R86: the five commands, code in binary. -/
theorem test_decode_commands :
    decode ref (.command ⟨0b000, []⟩) = .ok .nop ∧
    decode ref (.command ⟨0b001, []⟩) = .ok .reset ∧
    decode ref (.command ⟨0b010, [0b00010101]⟩) = .ok (.push 0x15) ∧
    decode ref (.command ⟨0b011, []⟩) = .ok .decodeNext ∧
    decode ref (.command ⟨0b100, [0b00000010, 0b00010101]⟩) = .ok (.encode 0x02 [0x15]) := by decide +kernel

/-- R71, D23: a frame of each kind, start, type, length, payload, checksum, in bits. -/
theorem test_decode_frames :
    decode ref (.frame [0b11111100, 0b00000001, 0b00000000, 0b11111101]) = .ok (.connect [] 0xFD) ∧
    decode ref (.frame [0b11111100, 0b00000010, 0b00000001, 0b00010101, 0b00010100]) =
      .ok (.tempReport [0x15] 0x14) ∧
    decode ref (.frame [0b11111100, 0b00000011, 0b00000000, 0b11111111]) = .ok (.statusReport [] 0xFF) ∧
    decode ref (.frame [0b11111100, 0b00000100, 0b00000000, 0b00000000]) = .ok (.ack [] 0x00) ∧
    decode ref (.frame [0b11111100, 0b01111110, 0b00000010, 0b10101010, 0b10111011, 0b11100001]) =
      .ok (.unknown 0x7E [0xAA, 0xBB] 0xE1) := by decide +kernel

/-- R84, R86: what is no command, rejected by name. -/
theorem test_decode_rejects_commands :
    decode ref (.command ⟨5, []⟩) = .error (.command (.reservedCode 5)) ∧
    decode ref (.command ⟨6, [1]⟩) = .error (.command (.reservedCode 6)) ∧
    decode ref (.command ⟨7, []⟩) = .error (.command (.reservedCode 7)) ∧
    decode ref (.command ⟨0, [0]⟩) = .error (.command (.operandShape 0)) ∧
    decode ref (.command ⟨2, []⟩) = .error (.command (.operandShape 2)) ∧
    decode ref (.command ⟨2, [1, 2]⟩) = .error (.command (.operandShape 2)) ∧
    decode ref (.command ⟨4, []⟩) = .error (.command (.operandShape 4)) := by decide +kernel

/-- R85, R122, R123, R126, R127: what is no frame, rejected by name. -/
theorem test_decode_rejects_frames :
    decode alt (.frame []) = .error (.frame .empty) ∧
    decode alt (.frame [0xFD, 0x02, 0x00, 0xFE]) = .error (.frame .notStart) ∧
    decode alt (.frame [0xFC, 0x02]) = .error (.frame .headerIncomplete) ∧
    decode alt (.frame [0xFC, 0x02, 0x21, 0x00]) = .error (.frame .lengthRange) ∧
    decode alt (.frame [0xFC, 0x02, 0x00]) = .error (.frame .bodyIncomplete) ∧
    decode alt (.frame [0xFC, 0x02, 0x00, 0xFE, 0x00]) = .error (.frame .trailingBytes) := by decide +kernel

/-! ## The checksum unit and the dispatch table -/

/-- V-CK-1, V-CK-2. -/
theorem test_checksum :
    sum8 [] = 0x00 ∧ sum8 [0xFC, 0x04, 0x00] = 0x00 ∧ sum8 [0xFC, 0x02, 0x01, 0x15] = 0x14 ∧
    sum8 [0xFC, 0x03, 0x06, 0x01, 0x03, 0x14, 0, 0, 0] = 0x1D ∧
    sum8 ([0xFC, 0x00, 0xFF] ++ List.replicate 255 0xFF) = 0xFC ∧
    checksum ref [0xFC, 0x04, 0x01, 0x10] = 0x11 ∧ checksum alt [0xFC, 0x04, 0x01, 0x10] = 0xEB ∧
    checksum alt [0xFC, 0x02, 0x00] = 0xFE := by decide +kernel

/-- V-DI-1. -/
theorem test_kind :
    kindOf ref 1 = .connect ∧ kindOf ref 2 = .tempReport ∧ kindOf ref 3 = .statusReport ∧ kindOf ref 4 = .ack ∧
    kindOf ref 0 = .unknown ∧ kindOf ref 5 = .unknown ∧ kindOf ref 0xFC = .unknown := by decide +kernel

/-! ## One command each -/

/-- V-CM-1 on a block in use: all but the response stays. -/
theorem test_nop : nextOf (exec .nop busy) = { busy with response := some .done } := rfl

/-- V-CM-2, P4 step 13: `OVF`, the results and the buffer are cleared. -/
theorem test_reset : nextOf (exec .reset busy) = { State.resetWith alt with response := some .done } := rfl

/-- V-CM-3: the 36th byte fits, the 37th is dropped. -/
theorem test_push :
    exec (.push 0x11) (holding alt (List.replicate 35 0)) =
      .next { holding alt (List.replicate 35 0 ++ [0x11]) with response := some .pushed } ∧
    exec (.push 0x11) (holding alt (List.replicate 36 0)) =
      .next { holding alt (List.replicate 36 0) with ovf := true, response := some .dropped } := ⟨rfl, rfl⟩

/-- V-PA-1 to V-PA-15, V-DI-2, V-HZ-1, V-HZ-2, V-HZ-3: one `DECODE` each, under `REFCFG`. -/
theorem test_decode_next :
    decodes ref [] = some ⟨.incomplete, .none, none, []⟩ ∧
    decodes ref [0x00, 0x11, 0x7F] = some ⟨.incomplete, .none, none, []⟩ ∧
    decodes ref [0xFC, 0x04] = some ⟨.incomplete, .none, none, [0xFC, 0x04]⟩ ∧
    decodes ref [0xFC, 0x04, 0x00, 0x01] = some ⟨.invalid, .badChecksum, none, [0x04, 0x00, 0x01]⟩ ∧
    decodes ref [0x00, 0x55, 0xFC, 0x02, 0x01, 0x15, 0x14] =
      some ⟨.frame, .none, some (.tempReport, 0x02, [0x15], 0x14), []⟩ ∧
    decodes ref [0xFC, 0x03, 0x02, 0xAA, 0xBB, 0x66] =
      some ⟨.invalid, .shortPayload, none, [0x03, 0x02, 0xAA, 0xBB, 0x66]⟩ ∧
    decodes ref [0xFC, 0x03, 0x02, 0xAA, 0xBB, 0x67] =
      some ⟨.invalid, .badChecksum, none, [0x03, 0x02, 0xAA, 0xBB, 0x67]⟩ ∧
    decodes ref [0xFC, 0x03, 0x06, 0x01, 0x03, 0x14, 0, 0, 0, 0x1D, 0xFC, 0x02, 0x01, 0x15, 0x14] =
      some ⟨.frame, .none, some (.statusReport, 0x03, [0x01, 0x03, 0x14, 0, 0, 0], 0x1D),
        [0xFC, 0x02, 0x01, 0x15, 0x14]⟩ ∧
    decodes ref [0xFC, 0xFC, 0x00, 0xF8] = some ⟨.frame, .none, some (.unknown, 0xFC, [], 0xF8), []⟩ ∧
    decodes ref [0xFC, 0x02, 0x05, 0xFC, 0x02, 0x01, 0x15, 0x14] =
      some ⟨.incomplete, .none, none, [0xFC, 0x02, 0x05, 0xFC, 0x02, 0x01, 0x15, 0x14]⟩ ∧
    decodes ref [0x02, 0x04, 0xFC, 0x02, 0x00, 0xFE, 0xFF] =
      some ⟨.frame, .none, some (.tempReport, 0x02, [], 0xFE), [0xFF]⟩ ∧
    decodes ref [0xFC, 0x02, 0x01, 0x10, 0x0F, 0x00, 0x20] =
      some ⟨.frame, .none, some (.tempReport, 0x02, [0x10], 0x0F), [0x00, 0x20]⟩ := by decide +kernel

/-- V-PA-10, V-PA-17, V-PA-18: the longest frames, and `LEN_RANGE` under `ALTCFG`. -/
theorem test_decode_next_limits :
    decodes ref ([0xFC, 0x00, 0xFF] ++ List.replicate 255 0xFF ++ [0xFC]) =
      some ⟨.frame, .none, some (.unknown, 0x00, List.replicate 255 0xFF, 0xFC), []⟩ ∧
    decodes alt [0xFC, 0x02, 0x21, 0x00] = some ⟨.invalid, .lenRange, none, [0x02, 0x21, 0x00]⟩ ∧
    decodes alt ([0xFC, 0x02, 0x20] ++ List.replicate 32 0x00 ++ [0xDE]) =
      some ⟨.frame, .none, some (.tempReport, 0x02, List.replicate 32 0x00, 0xDE), []⟩ ∧
    decodes alt [0xFC, 0x04, 0x00, 0x00] = some ⟨.invalid, .badChecksum, none, [0x04, 0x00, 0x00]⟩ := by
  decide +kernel

/-- V-EN-2 to V-EN-4, V-EN-8, V-EN-9: the frames, and the receive side untouched. -/
theorem test_encode :
    (nextOf (exec (.encode 0x02 [0x15]) (holding ref [0xFC, 0x04, 0x00]))).transmit =
      some ⟨5, [0xFC, 0x02, 0x01, 0x15, 0x14]⟩ ∧
    (nextOf (exec (.encode 0x02 [0x15]) (holding ref [0xFC, 0x04, 0x00]))).buf = [0xFC, 0x04, 0x00] ∧
    (nextOf (exec (.encode 0x03 [0x01, 0x03, 0x14, 0, 0, 0]) State.reset)).transmit =
      some ⟨10, [0xFC, 0x03, 0x06, 0x01, 0x03, 0x14, 0, 0, 0, 0x1D]⟩ ∧
    (nextOf (exec (.encode 0x03 [0xAA, 0xBB]) busy)).transmit = some ⟨6, [0xFC, 0x03, 0x02, 0xAA, 0xBB, 0x96]⟩ ∧
    (nextOf (exec (.encode 0x03 [0xAA, 0xBB]) busy)).capture = busy.capture := by decide +kernel

/-- V-EN-5: 255 bytes are encoded, 256 are not; 32 and 33 under `ALTCFG`. -/
theorem test_encode_limits :
    ((nextOf (exec (.encode 0x00 (List.replicate 255 0xFF)) State.reset)).transmit.map Transmit.txLen) = some 259 ∧
    (nextOf (exec (.encode 0x00 (List.replicate 256 0xFF)) State.reset)).response = some (.encoded .errLen none) ∧
    ((nextOf (exec (.encode 0x00 (List.replicate 32 0xFF)) busy)).transmit.map Transmit.txLen) = some 36 ∧
    (nextOf (exec (.encode 0x00 (List.replicate 33 0xFF)) busy)).transmit = none := by decide +kernel

/-- V-DI-1, V-PA-18: a `CONNECT` frame. -/
theorem test_connect :
    seen (exec (.connect [] 0xFD) (holding ref [0xFC, 0x01, 0x00, 0xFD, 0x33])) =
      some ⟨.frame, .none, some (.connect, 0x01, [], 0xFD), [0x33]⟩ ∧
    seen (exec (.connect [] 0xFD) (holding alt [0xFC, 0x01, 0x00, 0xFD])) =
      some ⟨.invalid, .badChecksum, none, [0x01, 0x00, 0xFD]⟩ := by decide +kernel

/-- V-DI-3, V-CK-7. -/
theorem test_temp_report :
    seen (exec (.tempReport [0xAA, 0xBB] 0x65) (holding ref [0xFC, 0x02, 0x02, 0xAA, 0xBB, 0x65])) =
      some ⟨.frame, .none, some (.tempReport, 0x02, [0xAA, 0xBB], 0x65), []⟩ ∧
    seen (exec (.tempReport [0x15] 0xEA) (holding ref [0xFC, 0x02, 0x01, 0x15, 0xEA])) =
      some ⟨.invalid, .badChecksum, none, [0x02, 0x01, 0x15, 0xEA]⟩ := by decide +kernel

/-- V-DI-2: 5 payload bytes are too few, 6 are enough. -/
theorem test_status_report :
    seen (exec (.statusReport [0x01, 0x03, 0x14, 0, 0] 0x1C)
        (holding ref [0xFC, 0x03, 0x05, 0x01, 0x03, 0x14, 0, 0, 0x1C])) =
      some ⟨.invalid, .shortPayload, none, [0x03, 0x05, 0x01, 0x03, 0x14, 0, 0, 0x1C]⟩ ∧
    seen (exec (.statusReport [0x01, 0x03, 0x14, 0, 0, 0] 0x1D)
        (holding ref [0xFC, 0x03, 0x06, 0x01, 0x03, 0x14, 0, 0, 0, 0x1D])) =
      some ⟨.frame, .none, some (.statusReport, 0x03, [0x01, 0x03, 0x14, 0, 0, 0], 0x1D), []⟩ := by decide +kernel

/-- V-PA-4, V-PA-18. -/
theorem test_ack :
    seen (exec (.ack [] 0x00) (holding ref [0xFC, 0x04, 0x00, 0x00])) =
      some ⟨.frame, .none, some (.ack, 0x04, [], 0x00), []⟩ ∧
    seen (exec (.ack [] 0xFC) (holding alt [0xFC, 0x04, 0x00, 0xFC])) =
      some ⟨.frame, .none, some (.ack, 0x04, [], 0xFC), []⟩ := by decide +kernel

/-- V-PA-8. -/
theorem test_unknown :
    seen (exec (.unknown 0x7E [0xAA, 0xBB] 0xE1) (holding ref [0xFC, 0x7E, 0x02, 0xAA, 0xBB, 0xE1])) =
      some ⟨.frame, .none, some (.unknown, 0x7E, [0xAA, 0xBB], 0xE1), []⟩ := by decide +kernel

/-! ## Steps, the interface, reads -/

/-- A step runs what is presented first, and the word placed by `withFetchWord` before anything else. -/
theorem test_step :
    (nextOf (step (asked 2 [0x00]))).response = some .dropped ∧ (nextOf (step (asked 2 [0x00]))).port = [] ∧
    (nextOf (step (State.reset.withFetchWord 16 0x1502))).buf = [0x15] ∧
    seen (step (State.reset.withFetchWord 24 0xFC0400)) =
      some ⟨.frame, .none, some (.ack, 0x04, [], 0x00), []⟩ ∧
    seen (step (State.reset.withFetchWord 24 0xFC0100)) =
      some ⟨.invalid, .badChecksum, none, [0x01, 0x00, 0x00]⟩ ∧
    (nextOf (step State.reset)).response = none := by decide +kernel

/-- R26, R24, R27, R30: the status view of a block in use, and two reads of registers without value. -/
theorem test_host_reads :
    busy.hostRead .count = .ok 36 ∧ countWidth ref = 10 ∧ busy.hostRead .ovf = .ok 1 ∧ busy.hostRead .res = .ok 2 ∧
    busy.hostRead .fKind = .ok 4 ∧ busy.hostRead (.tx 4) = .ok 0xE8 ∧ busy.hostRead (.tx 5) = .error .noValue ∧
    busy.hostRead (.fPay 0) = .error .noValue ∧ State.reset.hostRead .fType = .error .noValue := by decide +kernel

/-- R6, R10, U12: no capacity at all on a block after reset; and one byte short of the longest frame, on a block in use. -/
theorem test_host_reads_under_an_ill_formed_configuration :
    (State.resetWith { ref with bufCap := 0 }).hostRead .count = .error .illFormedConfig ∧
    ({ busy with cfg := { alt with bufCap := 35 } } : State).hostRead .fType = .error .illFormedConfig ∧
    ({ busy with cfg := { alt with bufCap := 35 } } : State).hostRead .need = .error .illFormedConfig := by
  decide +kernel

/-- R33 (a) at reset. -/
theorem test_reset_memory_wf : Memory.wf State.reset.cfg.bufCap State.reset.buf = true := by decide +kernel

/-! ## Witnesses: states and operands that meet the hypotheses of each obligation -/

/-- The invariant of a state given by its parts. -/
theorem busy_inv : busy.Inv where
  cfg := by decide +kernel
  room := by decide +kernel
  reason := by decide
  captured := by decide
  frame := by
    intro f hf
    obtain rfl : (⟨0xFC, 0x04, 0, [], 0xFC, .ack⟩ : Capture) = f := Option.some.inj hf
    exact ⟨by decide +kernel, by decide +kernel, by decide +kernel, by decide +kernel, by decide +kernel,
      by decide +kernel⟩
  encoded := by decide
  sent := by
    intro f hf
    obtain rfl : (⟨5, [0xFC, 0x02, 0x01, 0x15, 0xE8]⟩ : Transmit) = f := Option.some.inj hf
    exact ⟨by decide +kernel, by decide +kernel, by decide +kernel, by decide +kernel, by decide +kernel,
      by decide +kernel⟩
  idle := rfl

theorem witness_PushAppendsOrSetsOvf :
    (holding alt (List.replicate 35 0)).buf.length < alt.bufCap ∧ busy.buf.length = busy.cfg.bufCap := by
  decide +kernel

theorem witness_EncodeBuildsTheFrame :
    ref.wf = true ∧ (List.replicate 255 (0xFF : Byte)).length ≤ ref.maxLen ∧ ([] : List Byte).length ≤ ref.maxLen := by
  decide +kernel

theorem witness_EncodeRefusesAnOverlongPayload :
    busy.cfg.maxLen < (List.replicate 33 (0 : Byte)).length ∧
    (ref.wf = true ∧ 255 < (List.replicate 256 (0 : Byte)).length) := by decide +kernel

theorem witness_EncodeIsInjective :
    ∃ u u' : State, busy.cfg.wf = true ∧ (holding alt []).cfg = busy.cfg ∧ [(0x15 : Byte)].length ≤ busy.cfg.maxLen ∧
      exec (.encode 2 [0x15]) busy = .next u ∧ exec (.encode 2 [0x15]) (holding alt []) = .next u' ∧
      u.transmit.map Transmit.tx = u'.transmit.map Transmit.tx :=
  ⟨_, _, test_altcfg_wf, rfl, by decide, rfl, rfl, rfl⟩

/-- Both clauses, at the minimum of a `STATUS_REPORT`, 6, and one below. -/
theorem witness_EncodedFramesDecodeToThemselves :
    (∀ p ∈ [[(1 : Byte), 3, 20, 0, 0, 0], [1, 3, 20, 0, 0]],
      p.length ≤ ref.maxLen ∧ ref.start ∉ State.reset.buf ∧
      ∃ u v f rs, exec (.encode 3 p) State.reset = .next u ∧ u.transmit = some f ∧
        runScript exec (feed f.tx) u = some (rs, v) ∧ ∀ r ∈ rs, r = .pushed) ∧
    minLen ref (kindOf ref 3) ≤ 6 ∧ 5 < minLen ref (kindOf ref 3) := by
  refine ⟨?_, by decide +kernel, by decide +kernel⟩
  simp only [List.mem_cons, List.not_mem_nil, or_false, forall_eq_or_imp, forall_eq]
  exact ⟨⟨by decide +kernel, by decide, _, _, _, _, rfl, rfl, rfl, by decide⟩,
    ⟨by decide +kernel, by decide, _, _, _, _, rfl, rfl, rfl, by decide⟩⟩

theorem witness_EncodeAndReceptionShareNoState :
    (∃ u u', (holding alt []).cfg = busy.cfg ∧ exec (.encode 4 []) busy = .next u ∧
      exec (.encode 4 []) (holding alt []) = .next u') ∧
    (∃ u, exec .decodeNext busy = .next u) ∧ ∃ u, exec (.push 7) busy = .next u :=
  ⟨⟨_, _, rfl, rfl, rfl⟩, ⟨_, decodeNext_after busy⟩, ⟨_, exec_push_full 7 (by decide)⟩⟩

theorem witness_Sum8ArithmeticFacts :
    [(1 : Byte), 2].Perm [2, 1] ∧ ∀ x, ref.fold x = x := by
  exact ⟨List.Perm.swap 2 1 [], Config.fold_foldTable ref (fun x => x) rfl⟩

theorem witness_SingleBitErrorsAreDetected : 3 < [(0xFC : Byte), 2, 1, 0x15].length ∧ alt.wf = true ∧ 7 < 8 := by
  decide +kernel

theorem witness_ExactlyOneChecksumBytePasses : (0x80 : Byte) ≠ 0 := by decide

theorem witness_WhatTheChecksumDoesNotDetect :
    alt.wf = true ∧ [(0xFC : Byte), 3, 2, 1].Perm [0xFC, 3, 1, 2] ∧ 2 < [(0xFC : Byte), 3, 2, 1].length ∧
    3 < [(0xFC : Byte), 3, 2, 1].length ∧ 2 ≠ 3 := by decide +kernel

theorem witness_KindFollowsTheTypeByte :
    ref.wf = true ∧ (5 : Byte) ∉ [ref.typeConnect, ref.typeTemp, ref.typeStatus, ref.typeAck] := by decide +kernel

theorem witness_NoStartByteIsIncomplete :
    ref.start ∉ (holding ref [0x00, 0x11, 0x7F]).buf ∧ ref.start ∉ (holding ref []).buf := by decide +kernel

theorem witness_PartialHeaderIsIncomplete :
    (holding ref [0x7F, 0xFC, 0x04]).buf = [0x7F] ++ ref.start :: [0x04] ∧ ref.start ∉ [(0x7F : Byte)] ∧
    (holding ref [0xFC]).buf = [] ++ ref.start :: [] := by decide +kernel

theorem witness_LengthOutOfRangeIsRejected :
    (holding alt [0xFC, 0x02, 0x21]).buf = [] ++ alt.start :: 0x02 :: 0x21 :: [] ∧
    alt.maxLen < (0x21 : Byte).toNat := by decide +kernel

theorem witness_MissingBodyIsIncomplete :
    (holding alt ([0xFC, 0x02, 0x20] ++ List.replicate 32 0)).buf =
      [] ++ alt.start :: 0x02 :: 0x20 :: List.replicate 32 0 ∧
    (0x20 : Byte).toNat ≤ alt.maxLen ∧ (List.replicate 32 (0 : Byte)).length < (0x20 : Byte).toNat + 1 := by
  decide +kernel

theorem witness_WrongChecksumIsRejected :
    ref.wf = true ∧
    (holding ref [0x7F, 0xFC, 0x04, 0x00, 0x01, 0x33]).buf = [0x7F] ++ frameBytes ref 0x04 [] 0x01 ++ [0x33] ∧
    ref.start ∉ [(0x7F : Byte)] ∧ ([] : List Byte).length ≤ ref.maxLen ∧
    (0x01 : Byte) ≠ checksum ref (summedBytes ref 0x04 []) := by decide +kernel

theorem witness_ShortPayloadIsRejected :
    ref.wf = true ∧
    (holding ref [0xFC, 0x03, 0x05, 0x01, 0x03, 0x14, 0, 0, 0x1C]).buf =
      [] ++ frameBytes ref 0x03 [0x01, 0x03, 0x14, 0, 0] 0x1C ++ [] ∧
    [(0x01 : Byte), 0x03, 0x14, 0, 0].length ≤ ref.maxLen ∧
    0x1C = checksum ref (summedBytes ref 0x03 [0x01, 0x03, 0x14, 0, 0]) ∧
    [(0x01 : Byte), 0x03, 0x14, 0, 0].length < minLen ref (kindOf ref 0x03) ∧
    ref.minConnect = 0 ∧ ref.minTemp = 0 ∧ ref.minAck = 0 ∧ ref.minUnknown = 0 := by decide +kernel

/-- Both clauses, at the minimum of a `STATUS_REPORT`. -/
theorem witness_AcceptedFrameIsCapturedWhole :
    (ref.wf = true ∧
      (holding ref [0xFC, 0x03, 0x06, 0x01, 0x03, 0x14, 0, 0, 0, 0x1D]).buf =
        [] ++ frameBytes ref 0x03 [0x01, 0x03, 0x14, 0, 0, 0] 0x1D ++ [] ∧
      Acceptable ref (kindOf ref 0x03) 0x03 [0x01, 0x03, 0x14, 0, 0, 0] 0x1D) ∧
    ∃ u, exec .decodeNext (holding ref [0xFC, 0x04, 0x00, 0x00]) = .next u ∧ u.res = .frame :=
  ⟨⟨test_refcfg_wf, by decide +kernel, by decide +kernel, by decide +kernel, by decide +kernel⟩,
    ⟨_, decodeNext_after _, by decide +kernel⟩⟩

theorem witness_UnknownTypeIsNeverAnError :
    ref.wf = true ∧
    (holding ref [0xFC, 0x7E, 0x02, 0xAA, 0xBB, 0xE1]).buf = [] ++ frameBytes ref 0x7E [0xAA, 0xBB] 0xE1 ++ [] ∧
    (0x7E : Byte) ∉ [ref.typeConnect, ref.typeTemp, ref.typeStatus, ref.typeAck] ∧
    Acceptable ref .unknown 0x7E [0xAA, 0xBB] 0xE1 :=
  ⟨test_refcfg_wf, by decide +kernel, by decide +kernel, by decide +kernel, by decide +kernel, by decide +kernel⟩

/-- For the obligations about `DECODE_NEXT` ending in a next state: each of the three results occurs. -/
theorem witness_DecodeNextEnds :
    (∃ u, exec .decodeNext (holding ref [0xFC, 0x02, 0xFF]) = .next u ∧ u.res = .incomplete) ∧
    (∃ u, exec .decodeNext (holding ref [0xFC, 0x04, 0x00, 0x01]) = .next u ∧ u.res = .invalid) ∧
    ∃ u, exec .decodeNext (holding ref [0xFC, 0x04, 0x00, 0x00]) = .next u ∧ u.res = .frame :=
  ⟨⟨_, decodeNext_after _, by decide +kernel⟩, ⟨_, decodeNext_after _, by decide +kernel⟩,
    ⟨_, decodeNext_after _, by decide +kernel⟩⟩

/-- `IncompleteHasExactlyItsThreeCauses`, `IncompleteCarriesNothingOver`, `ThereIsRoomAfterIncomplete`. -/
theorem witness_IncompleteResults :
    ∃ u, (holding ref [0xFC, 0x02, 0xFF]).cfg.wf = true ∧
      exec .decodeNext (holding ref [0xFC, 0x02, 0xFF]) = .next u ∧ u.res = .incomplete :=
  ⟨_, test_refcfg_wf, decodeNext_after _, by decide +kernel⟩

theorem witness_BytesBeforeTheStartByteLeaveNoTrace :
    (holding ref [0x00, 0x55, 0xFC, 0x02]).buf = [0x00, 0x55] ++ ref.start :: [0x02] ∧
    ref.start ∉ [(0x00 : Byte), 0x55] ∧
    ∃ u, exec .decodeNext (holding ref [0x00, 0x55, 0xFC, 0x02]) = .next u ∧ u.res = .incomplete :=
  ⟨by decide +kernel, by decide +kernel, _, decodeNext_after _, by decide +kernel⟩

/-- `CursorMovesOnlyAsItsCommandSays`, `CommandsTouchOnlyTheirOwnState`: every command ends in a next state. -/
theorem witness_EveryCommandEnds :
    (∃ u, exec .nop busy = .next u) ∧ (∃ u, exec .reset busy = .next u) ∧ (∃ u, exec (.push 7) busy = .next u) ∧
    (∃ u, exec .decodeNext busy = .next u) ∧ (∃ u, exec (.encode 4 []) busy = .next u) ∧
    ∃ u, (frameFields busy.cfg (.ack [] 0)).isSome = true ∧ exec (.ack [] 0) busy = .next u :=
  ⟨⟨_, rfl⟩, ⟨_, rfl⟩, ⟨_, exec_push_full 7 (by decide)⟩, ⟨_, decodeNext_after busy⟩, ⟨_, rfl⟩,
    ⟨_, rfl, runFrame_after _ _ _ _⟩⟩

theorem witness_DecodeNextDependsOnBufferAndConfigAlone :
    (holding alt (List.replicate 36 0)).cfg = busy.cfg ∧ (holding alt (List.replicate 36 0)).buf = busy.buf ∧
    holding alt (List.replicate 36 0) ≠ busy := ⟨rfl, rfl, fun h => absurd (congrArg State.ovf h) (by decide)⟩

/-- A stream cut in three: `7F FC 04`, `00`, `00`, with a `DECODE` after each part. -/
def chunked : List Instr :=
  [.push 0x7F, .push 0xFC, .push 0x04, .decodeNext, .push 0x00, .decodeNext, .push 0x00, .decodeNext]

theorem witness_ConsumingInTheScanChangesNoResult :
    ∃ rs v, ref.wf = true ∧ isReception chunked = true ∧
      runScript execPutBack chunked (State.resetWith ref) = some (rs, v) ∧ v.ovf = false := by
  have h : ((runScript execPutBack chunked (State.resetWith ref)).map fun r => r.2.ovf) = some false := by
    decide +kernel
  obtain ⟨⟨rs, v⟩, h1, h2⟩ := Option.map_eq_some_iff.1 h
  exact ⟨rs, v, test_refcfg_wf, rfl, h1, h2⟩

/-- The example of R137. -/
theorem witness_ResynchronisationFindsTheGenuineFrame :
    runOf ref [0xFC, 0x02, 0x01, 0x15, 0x14] =
      some ([frameResponse ⟨0xFC, 0x02, 0x01, [0x15], 0x14, .tempReport⟩], []) ∧
    ∀ j, j < 10 →
      ([0xFC, 0x03, 0x06, 0x01, 0x03, 0x10, 0, 0, 0, 0x1D] ++ [0xFC, 0x02, 0x01, 0x15, 0x14])[j]? =
        some ref.start →
      Rejectable ref
        ([0xFC, 0x03, 0x06, 0x01, 0x03, 0x10, 0, 0, 0, 0x1D] ++ [0xFC, 0x02, 0x01, 0x15, 0x14]) j := by
  refine ⟨by decide +kernel, fun j hj h => ?_⟩
  have h0 : j = 0 := by
    rcases (by omega : j = 0 ∨ j = 1 ∨ j = 2 ∨ j = 3 ∨ j = 4 ∨ j = 5 ∨ j = 6 ∨ j = 7 ∨ j = 8 ∨ j = 9) with
      rfl | rfl | rfl | rfl | rfl | rfl | rfl | rfl | rfl | rfl
    · rfl
    all_goals exact absurd h (by decide +kernel)
  subst h0
  exact ⟨0x03, 0x06, rfl, rfl, .inr ⟨0x1D, rfl, .inl (by decide +kernel)⟩⟩

theorem witness_ResultsDoNotDependOnChunking :
    ∃ rs rs' u v, ref.wf = true ∧ isReception chunked = true ∧
      runScript exec chunked (State.resetWith ref) = some (rs, u) ∧ u.ovf = false ∧
      drain (u.buf.length + 1) u = some (rs', v) := by
  have h : ((runScript exec chunked (State.resetWith ref)).bind fun r =>
      if r.2.ovf then none else drain (r.2.buf.length + 1) r.2).isSome = true := by decide +kernel
  obtain ⟨⟨rs', v⟩, h1⟩ := Option.isSome_iff_exists.1 h
  obtain ⟨⟨rs, u⟩, h2, h3⟩ := Option.bind_eq_some_iff.1 h1
  simp only at h3
  split at h3
  · cases h3
  · next ho => exact ⟨rs, rs', u, v, test_refcfg_wf, rfl, h2, by simpa using ho, h3⟩

/-- With `OVF = 0`, from reset, a `DECODE_NEXT` of each kind of result but `INVALID` and the other commands between. -/
theorem witness_BufferIsTheUnconsumedTailOfTheStream :
    ∃ rs u, (∀ i ∈ .nop :: .encode 2 [] :: chunked, i ≠ .reset ∧ frameFields ref i = none) ∧
      runScript exec (.nop :: .encode 2 [] :: chunked) (State.resetWith ref) = some (rs, u) ∧
      u.ovf = false := by
  have h : ((runScript exec (.nop :: .encode 2 [] :: chunked) (State.resetWith ref)).map fun r => r.2.ovf) =
      some false := by decide +kernel
  obtain ⟨⟨rs, u⟩, h1, h2⟩ := Option.map_eq_some_iff.1 h
  refine ⟨rs, u, ?_, h1, h2⟩
  simp [chunked, frameFields]

/-- R22 counted by hand: the bytes one `DECODE_NEXT` consumes, for each result, noise before it; V-CM-3: a `PUSH` into a full
buffer brings nothing in. -/
theorem test_consumed_and_kept :
    consumedAlong [.decodeNext] (holding ref [0x00, 0x11, 0xFC]) = [0x00, 0x11] ∧
    consumedAlong [.decodeNext] (holding ref [0x7F, 0xFC, 0x04, 0x00, 0x01]) = [0x7F, 0xFC] ∧
    consumedAlong [.decodeNext] (holding ref [0x7F, 0xFC, 0x02, 0x01, 0x15, 0x14, 0x33]) =
      [0x7F, 0xFC, 0x02, 0x01, 0x15, 0x14] ∧
    keptAlong [.push 7] busy = [] ∧ keptAlong [.push 7] (holding alt (List.replicate 35 0)) = [7] := by
  decide +kernel

/-- A frame of each kind that passes every test. -/
theorem witness_AcceptableFrameRowsAreAccepted :
    ref.wf = true ∧ Acceptable ref .connect ref.typeConnect [] 0xFD ∧ Acceptable ref .tempReport ref.typeTemp [] 0xFE ∧
    Acceptable ref .statusReport ref.typeStatus [1, 3, 0x14, 0, 0, 0] 0x1D ∧ Acceptable ref .ack ref.typeAck [] 0 ∧
    (5 : Byte) ∉ [ref.typeConnect, ref.typeTemp, ref.typeStatus, ref.typeAck] ∧ Acceptable ref .unknown 5 [] 1 := by
  refine ⟨test_refcfg_wf, ?_, ?_, ?_, ?_, by decide +kernel, ?_⟩ <;>
    exact ⟨by decide +kernel, by decide +kernel, by decide +kernel⟩

/-- Both clauses. -/
theorem witness_IllegalFrameRowsAreRejected :
    ref.wf = true ∧ (Instr.ack [] 1).wf ref = true ∧ frameFields ref (.ack [] 1) = some (.ack, ref.typeAck, [], 1) ∧
    (1 : Byte) ≠ checksum ref (summedBytes ref ref.typeAck []) ∧
    (Instr.statusReport [] 0xFF).wf ref = true ∧
    frameFields ref (.statusReport [] 0xFF) = some (.statusReport, ref.typeStatus, [], 0xFF) ∧
    0xFF = checksum ref (summedBytes ref ref.typeStatus []) ∧
    ([] : List Byte).length < minLen ref .statusReport := by decide +kernel

theorem witness_OvfIsSetByAFullPushAndClearedByReset :
    busy.buf.length ≤ busy.cfg.bufCap ∧ ∃ u, exec (.push 7) busy = .next u ∧ u.cfg.wf = true :=
  ⟨by decide +kernel, _, exec_push_full 7 (by decide), test_altcfg_wf⟩

theorem witness_ScratchRegistersCarryNothingOver : ∃ u, exec .decodeNext busy = .next u :=
  ⟨_, decodeNext_after busy⟩

/-- A state with `OVF` set that meets the invariant, and a step from it that is no `RESET`. -/
theorem witness_EveryStepKeepsTheInvariant :
    ∃ u, (asked 2 [0]).Inv ∧ step (asked 2 [0]) = .next u ∧ (asked 2 [0]).ovf = true ∧
      (asked 2 [0]).nowPresented ≠ .command .reset := by
  have hi := busy_inv
  have hp : (asked 2 [0]).nowPresented = .command (.push 0) := by decide
  exact ⟨_, ⟨hi.cfg, hi.room, hi.reason, hi.captured, hi.frame, hi.encoded, hi.sent, hi.idle⟩,
    (step_command test_altcfg_wf hp).trans (exec_push_full 0 (by decide)), rfl, by rw [hp]; decide⟩

theorem witness_StepRunsThePresentedCommand :
    alt.wf = true ∧ (asked 4 [2, 0x15]).port = [⟨4, [2, 0x15]⟩] :: [] ∧
    decodeCommand ⟨4, [2, 0x15]⟩ = .ok (.encode 2 [0x15]) := ⟨test_altcfg_wf, rfl, rfl⟩

theorem witness_CommandCodesRunTheirCommands :
    alt.wf = true ∧ (asked 0 []).port = [⟨0, []⟩] :: [] ∧ (asked 1 []).port = [⟨1, []⟩] :: [] ∧
    (asked 2 [9]).port = [⟨2, [9]⟩] :: [] ∧ (asked 3 []).port = [⟨3, []⟩] :: [] ∧
    (asked 4 [2, 9]).port = [⟨4, 2 :: [9]⟩] :: [] ∧ (asked 5 []).port = [⟨5, []⟩] :: [] ∧
    5 ≤ (5 : BitVec 3).toNat := ⟨test_altcfg_wf, rfl, rfl, rfl, rfl, rfl, rfl, by decide⟩

theorem witness_SituationsWithoutACommand :
    (∃ t1 t2, ({ busy with port := [[t1, t2]] } : State).port = (t1 :: t2 :: []) :: [] ∧ busy.cfg.wf = true) ∧
    ¬ ({ alt with bufCap := 35 } : Config).WellFormed ∧ busy.port = [] ∧
    ({ busy with port := [[]] } : State).port = [] :: [] :=
  ⟨⟨⟨0, []⟩, ⟨3, []⟩, rfl, test_altcfg_wf⟩, fun h => absurd h.2.2.2.2 (by decide), rfl, rfl⟩

/-- Both register obligations: the captured frame has no payload and the encoded one 5 bytes, so `F_PAY[0]` and `TX[5]`
are the first registers beyond. -/
theorem witness_Registers :
    busy.Inv ∧ busy.res = .frame ∧ busy.capture = some ⟨0xFC, 0x04, 0, [], 0xFC, .ack⟩ ∧ busy.txRes = .ok ∧
    busy.transmit = some ⟨5, [0xFC, 0x02, 0x01, 0x15, 0xE8]⟩ ∧ 5 ≤ 5 ∧
    State.reset.res ≠ .frame ∧ State.reset.txRes ≠ .ok :=
  ⟨busy_inv, rfl, rfl, rfl, rfl, Nat.le_refl 5, by decide, by decide⟩

theorem witness_reset_Inv : State.reset.Inv where
  cfg := test_refcfg_wf
  room := test_reset_memory_wf
  reason := by decide
  captured := by decide
  frame := by intro f hf; cases hf
  encoded := by decide
  sent := by intro f hf; cases hf
  idle := rfl

theorem witness_DecodeOfEncodeIsTheInstruction :
    alt.wf = true ∧ (Instr.unknown 0xFC (List.replicate 32 0xFC) 0xFC).wf alt = true ∧ Instr.decodeNext.wf alt = true := by
  decide +kernel

theorem witness_EncodeOfDecodeIsTheEncoding :
    decode ref (.frame [0xFC, 0x02, 0x01, 0x15, 0x14]) = .ok (.tempReport [0x15] 0x14) ∧
    decode ref (.command ⟨4, [2, 0x15]⟩) = .ok (.encode 2 [0x15]) := by decide +kernel

theorem witness_FrameFieldsStandAtTheirOffsets :
    alt.wf = true ∧ (List.replicate 32 (7 : Byte)).length ≤ alt.maxLen ∧ 31 < (List.replicate 32 (7 : Byte)).length := by
  decide +kernel

/-- A ring whose content straddles the wrap point, one with room and one full. -/
theorem witness_RingRefinesTheBuffer :
    Ring.wf 4 ⟨[1, 2, 3, 4], 3, 2⟩ = true ∧ 2 < 4 ∧ Ring.wf 4 ⟨[1, 2, 3, 4], 3, 4⟩ = true ∧
    Ring.toBuf 4 ⟨[1, 2, 3, 4], 3, 2⟩ = [4, 1] ∧ Ring.toBuf 4 (Ring.push 4 9 ⟨[1, 2, 3, 4], 3, 2⟩) = [4, 1, 9] := by
  decide +kernel

end Sys2Proof.Tests
end

section
/-! PROOFS. The statements of 10_state.md: how commands move the cursor (R22), the flag `OVF` (R25), and reads of
registers that hold no value (R30). -/

namespace Sys2Proof.Machine

variable {s u : State}

/-! ## How a command ends -/

/-- A `PUSH` has appended its byte, or has found no room and set `OVF` (R103). -/
theorem push_next_cases {b : Byte} (h : exec (.push b) s = .next u) :
    (s.buf.length < s.cfg.bufCap ∧ u = { s with buf := s.buf ++ [b] }.respond .pushed) ∨
    (¬ s.buf.length < s.cfg.bufCap ∧ u = s.setOvf.respond .dropped) := by
  by_cases hroom : s.buf.length < s.cfg.bufCap
  · rw [exec_push_room b hroom] at h
    cases h
    exact .inl ⟨hroom, rfl⟩
  · rw [exec_push_full b hroom] at h
    cases h
    exact .inr ⟨hroom, rfl⟩

/-- An `ENCODE` has ended with the frame it built, its scratch register empty, or with `ERR_LEN` (R171, R172). -/
theorem encode_next_cases {t : Byte} {p : List Byte} (h : exec (.encode t p) s = .next u) :
    (p.length ≤ s.cfg.maxLen ∧ ∃ f : Transmit, u = s.endEncode.encoded .ok (some f)) ∨
    (s.cfg.maxLen < p.length ∧ u = s.encoded .errLen none) := by
  rcases le_or_gt p.length s.cfg.maxLen with hp | hp
  · rw [exec_encode_ok t hp] at h
    cases h
    exact .inl ⟨hp, _, rfl⟩
  · rw [exec_encode_long t hp] at h
    cases h
    exact .inr ⟨hp, rfl⟩

/-- `DECODE_NEXT` has ended in the state of its verdict on the scanned buffer (R104, R120). -/
theorem decodeNext_next (h : exec .decodeNext s = .next u) :
    u = s.after (Memory.scan s.cfg.start s.buf) (verdict s.cfg (Memory.scan s.cfg.start s.buf)) := by
  rw [decodeNext_after] at h
  cases h
  rfl

/-! ## The cursor (R22) -/

/-- What a verdict on `view` takes of it: nothing, the start byte, or the whole frame (R22 (c) to (e)). -/
theorem after_verdict_cursor (s : State) (c : Config) (view : Memory) :
    ((s.after view (verdict c view)).res = .incomplete ∧ (s.after view (verdict c view)).buf = view) ∨
    ((s.after view (verdict c view)).res = .invalid ∧ view ≠ [] ∧
      (s.after view (verdict c view)).buf = view.drop 1) ∨
    ((s.after view (verdict c view)).res = .frame ∧ ∃ f, (s.after view (verdict c view)).capture = some f ∧
      f.fLen.toNat + 4 ≤ view.length ∧ (s.after view (verdict c view)).buf = view.drop (f.fLen.toNat + 4)) := by
  cases hv : verdict c view with
  | incomplete => exact .inl ⟨rfl, rfl⟩
  | reject reason =>
    exact .inr (.inl ⟨rfl, List.ne_nil_of_length_pos (verdict_reject_length hv), rfl⟩)
  | accept f => exact .inr (.inr ⟨rfl, f, rfl, verdict_accept_length hv, rfl⟩)

/-- Settles O26: the scan splits `buf` into noise and the view its verdict is on; the verdict says what of the view is
taken, and no other command but `PUSH` and `RESET` writes `buf`. -/
theorem cursorMovesOnlyAsItsCommandSays : Obligations.CursorMovesOnlyAsItsCommandSays := by
  refine ⟨?decodeNext, ?push, ?reset, ?encode, ?nop⟩
  case decodeNext =>
    intro s u h
    obtain ⟨noise, hbuf, hnoise, hview⟩ := Memory.scan_spec s.cfg.start s.buf
    refine ⟨noise, _, hbuf, hnoise, hview, ?_⟩
    rw [decodeNext_next h]
    exact after_verdict_cursor s s.cfg _
  case push =>
    intro s u b h
    obtain ⟨-, rfl⟩ | ⟨-, rfl⟩ := push_next_cases h
    · exact .inr rfl
    · exact .inl rfl
  case reset =>
    intro s u h
    rw [exec_reset] at h
    cases h
    rfl
  case encode =>
    intro s u t p h
    obtain ⟨-, f, rfl⟩ | ⟨-, rfl⟩ := encode_next_cases h <;> rfl
  case nop =>
    intro s u h
    rw [exec_nop] at h
    cases h
    rfl

/-! ## The flag `OVF` (R25) -/

/-- What `OVF` becomes when `i` runs from `s`, `x` being its value before: `RESET` clears it, a `PUSH` that finds no
room sets it, and every other end leaves it. -/
def ovfAfter (i : Instr) (s : State) (x : Bool) : Bool :=
  match i with
  | .reset => false
  | .push _ => x || decide (s.cfg.bufCap ≤ s.buf.length)
  | .nop | .decodeNext | .encode _ _ | .connect _ _ | .tempReport _ _ | .statusReport _ _ | .ack _ _
  | .unknown _ _ _ => x

theorem ovfAfter_eq_true_iff {i : Instr} {x : Bool} :
    ovfAfter i s x = true ↔ i ≠ .reset ∧ (x = true ∨ ∃ b, i = .push b ∧ s.cfg.bufCap ≤ s.buf.length) := by
  cases i <;> simp [ovfAfter]

/-- A frame row neither reads nor writes `OVF`. -/
theorem runFrame_with_ovf {t : Byte} {p : List Byte} {ck : Byte} (h : runFrame t p ck s = .next u) (x : Bool) :
    runFrame t p ck { s with ovf := x } = .next { u with ovf := x } := by
  rw [runFrame_after] at h ⊢
  cases h
  cases verdict s.cfg (frameBytes s.cfg t p ck) <;> rfl

/-- With another `OVF` before it, a command ends in the same state but for `OVF`: no command reads it (R25). -/
theorem exec_with_ovf {i : Instr} (h : exec i s = .next u) (x : Bool) :
    exec i { s with ovf := x } = .next { u with ovf := ovfAfter i s x } := by
  cases i with
  | nop | reset =>
    cases h
    rfl
  | push b =>
    obtain ⟨hroom, rfl⟩ | ⟨hfull, rfl⟩ := push_next_cases h
    · rw [exec_push_room (s := { s with ovf := x }) b hroom]
      simp [ovfAfter, hroom, State.respond]
    · rw [exec_push_full (s := { s with ovf := x }) b hfull]
      simp [ovfAfter, Nat.not_lt.1 hfull, State.respond, State.setOvf]
  | decodeNext =>
    rw [decodeNext_next h, decodeNext_after]
    cases verdict s.cfg (Memory.scan s.cfg.start s.buf) <;> rfl
  | encode t p =>
    rcases le_or_gt p.length s.cfg.maxLen with hp | hp
    · rw [exec_encode_ok t hp] at h
      cases h
      exact exec_encode_ok (s := { s with ovf := x }) t hp
    · rw [exec_encode_long t hp] at h
      cases h
      exact exec_encode_long (s := { s with ovf := x }) t hp
  | connect | tempReport | statusReport | ack | unknown => exact runFrame_with_ovf h x

/-- What a command leaves in `OVF`. -/
theorem exec_ovf {i : Instr} (h : exec i s = .next u) : u.ovf = ovfAfter i s s.ovf := by
  have hsame : exec i s = .next { u with ovf := ovfAfter i s s.ovf } := exec_with_ovf h s.ovf
  rw [h] at hsame
  injection hsame with hu
  exact congrArg State.ovf hu

/-- Settles O39: what a command leaves in `OVF` is `ovfAfter` of what it found there, and the rest of its effect is the
same whatever it found. -/
theorem ovfIsSetByAFullPushAndClearedByReset : Obligations.OvfIsSetByAFullPushAndClearedByReset := by
  intro i s u hlen h
  refine ⟨?_, fun x => ⟨_, exec_with_ovf h x⟩, fun hc => State.hostRead_value hc rfl⟩
  have hfull : s.buf.length = s.cfg.bufCap ↔ s.cfg.bufCap ≤ s.buf.length :=
    ⟨fun he => he.ge, fun hge => hlen.antisymm hge⟩
  rw [exec_ovf h, ovfAfter_eq_true_iff, hfull]

/-! ## Registers that hold no value (R30) -/

/-- The capture registers hold no value unless `RES = FRAME` (R24). -/
theorem State.Inv.capture_eq_none (hs : s.Inv) (h : s.res ≠ .frame) : s.capture = none := by
  cases hf : s.capture with
  | none => rfl
  | some f => exact absurd (hs.captured.1 (by rw [hf]; rfl)) h

/-- The transmit registers hold no value unless `TX_RES = OK` (R27). -/
theorem State.Inv.transmit_eq_none (hs : s.Inv) (h : s.txRes ≠ .ok) : s.transmit = none := by
  cases hf : s.transmit with
  | none => rfl
  | some f => exact absurd (hs.encoded.1 (by rw [hf]; rfl)) h

theorem regValue_of_capture_none (h : s.capture = none) {i : Nat} {r : Reg}
    (hr : r ∈ [Reg.fStart, .fType, .fLen, .fPay i, .fCk, .fKind]) : s.regValue r = none := by
  simp only [List.mem_cons, List.not_mem_nil, or_false] at hr
  rcases hr with rfl | rfl | rfl | rfl | rfl | rfl <;> simp [State.regValue, h]

theorem regValue_of_transmit_none (h : s.transmit = none) {i : Nat} {r : Reg}
    (hr : r ∈ [Reg.txLen, .tx i]) : s.regValue r = none := by
  simp only [List.mem_cons, List.not_mem_nil, or_false] at hr
  rcases hr with rfl | rfl <;> simp [State.regValue, h]

theorem regValue_of_scratch_empty (h : s.scratch = Scratch.empty) {r : Reg}
    (hr : r ∈ [Reg.typeR, .lenR, .need, .acc, .ckR, .kindR, .tacc]) : s.regValue r = none := by
  simp only [List.mem_cons, List.not_mem_nil, or_false] at hr
  rcases hr with rfl | rfl | rfl | rfl | rfl | rfl | rfl <;> simp [State.regValue, h, Scratch.empty]

/-- `F_PAY[i]` holds no value from `F_LEN` on. -/
theorem regValue_fPay_of_le (hs : s.Inv) {f : Capture} (hf : s.capture = some f) {i : Nat}
    (hi : f.fLen.toNat ≤ i) : s.regValue (.fPay i) = none := by
  obtain ⟨-, -, hlen, -⟩ := hs.frame f hf
  simp [State.regValue, hf, List.getElem?_eq_none (hlen.trans_le hi)]

/-- `TX[i]` holds no value from `TX_LEN` on. -/
theorem regValue_tx_of_le (hs : s.Inv) {f : Transmit} (hf : s.transmit = some f) {i : Nat}
    (hi : f.txLen.toNat ≤ i) : s.regValue (.tx i) = none := by
  obtain ⟨-, -, hlen, -⟩ := hs.sent f hf
  simp [State.regValue, hf, List.getElem?_eq_none (hlen.trans_le hi)]

/-- Settles O47: under the invariant each of these registers holds no value, and the host's read is refused for that. -/
theorem registersWithoutValueAreRefused : Obligations.RegistersWithoutValueAreRefused := by
  intro s hs
  have hrefused {r : Reg} (h : s.regValue r = none) : s.hostRead r = .error .noValue :=
    State.hostRead_noValue hs.cfg h
  exact ⟨fun hres _ _ hr => hrefused (regValue_of_capture_none (hs.capture_eq_none hres) hr),
    fun _ hf _ hi => hrefused (regValue_fPay_of_le hs hf hi),
    fun hres _ _ hr => hrefused (regValue_of_transmit_none (hs.transmit_eq_none hres) hr),
    fun _ hf _ hi => hrefused (regValue_tx_of_le hs hf hi),
    fun _ hr => hrefused (regValue_of_scratch_empty hs.idle hr)⟩

end Sys2Proof.Machine
end

section
/-! PROOFS. The statement of 20_memory.md: the receive buffer is first in, first out (R58). -/

namespace Sys2Proof.Machine

variable {s u : State}

/-! ## One command -/

@[simp] theorem State.after_cfg (s : State) (view : Memory) (v : Verdict) : (s.after view v).cfg = s.cfg := by
  cases v <;> rfl

/-- No instruction writes `CFG` (R29). -/
theorem exec_cfg {i : Instr} (h : exec i s = .next u) : u.cfg = s.cfg := by
  cases i with
  | nop | reset =>
    cases h
    rfl
  | push b =>
    obtain ⟨-, rfl⟩ | ⟨-, rfl⟩ := push_next_cases h <;> rfl
  | decodeNext => rw [decodeNext_next h, State.after_cfg]
  | encode t p =>
    obtain ⟨-, f, rfl⟩ | ⟨-, rfl⟩ := encode_next_cases h <;> rfl
  | connect p ck | tempReport p ck | statusReport p ck | ack p ck | unknown t p ck =>
    cases (runFrame_after _ p ck s).symm.trans h
    exact State.after_cfg s _ _

/-- An `OVF` of 0 after a command other than `RESET` was 0 before it (R25). -/
theorem exec_ovf_eq_false {i : Instr} (hi : i ≠ .reset) (h : exec i s = .next u) (hu : u.ovf = false) :
    s.ovf = false := by
  by_contra hs
  have hset : ovfAfter i s s.ovf = true := ovfAfter_eq_true_iff.2 ⟨hi, .inl (by simpa using hs)⟩
  rw [← exec_ovf h, hu] at hset
  cases hset

theorem pushedBytes_of_ne_push {i : Instr} (hi : ∀ b, i ≠ .push b) : pushedBytes [i] = [] := by
  cases i with
  | push b => exact absurd rfl (hi b)
  | _ => rfl

theorem keptBy_of_ne_push {i : Instr} (hi : ∀ b, i ≠ .push b) (s : State) : keptBy i s = [] := by
  rw [keptBy, pushedBytes_of_ne_push hi, ite_self]

theorem keptBy_sublist (i : Instr) (s : State) : (keptBy i s).Sublist (pushedBytes [i]) := by
  rw [keptBy]
  split
  · exact List.Sublist.refl _
  · exact List.nil_sublist _

/-- A command that ends with `OVF` 0 has dropped nothing: a `PUSH` without room would have set it. -/
theorem keptBy_of_ovf_eq_false {i : Instr} (h : exec i s = .next u) (hu : u.ovf = false) :
    keptBy i s = pushedBytes [i] := by
  by_cases hi : ∃ b, i = .push b
  · obtain ⟨b, rfl⟩ := hi
    obtain ⟨hroom, -⟩ | ⟨-, rfl⟩ := push_next_cases h
    · exact if_pos hroom
    · cases hu
  · rw [not_exists] at hi
    rw [keptBy_of_ne_push hi, pushedBytes_of_ne_push hi]

theorem consumedBy_of_ne_decodeNext {i : Instr} (hi : i ≠ .decodeNext) (s t : State) : consumedBy i s t = [] :=
  if_neg hi

/-- What `DECODE_NEXT` consumes is the beginning of `buf`, what it leaves is the rest (R22). -/
theorem decodeNext_consumedBy_append (h : exec .decodeNext s = .next u) :
    consumedBy .decodeNext s u ++ u.buf = s.buf := by
  have hbuf : u.buf = s.buf.drop (Memory.scanned s.cfg.start s.buf + u.endAdvance) := by
    rw [decodeNext_next h, State.after_buf, ← List.drop_drop, Memory.drop_scanned]
  rw [hbuf, consumedBy, if_pos rfl, List.take_append_drop]

/-- A command that leaves `buf` as it was brings nothing in and consumes nothing. -/
theorem buf_append_keptBy_of_buf_eq {i : Instr} (hpush : ∀ b, i ≠ .push b) (hdecode : i ≠ .decodeNext)
    (hbuf : u.buf = s.buf) : s.buf ++ keptBy i s = consumedBy i s u ++ u.buf := by
  rw [keptBy_of_ne_push hpush, consumedBy_of_ne_decodeNext hdecode, List.append_nil, List.nil_append, hbuf]

/-- R58 for one command: what `buf` held and the byte brought in are what was consumed and what `buf` holds. -/
theorem exec_buf_append_keptBy {i : Instr} (hi : i ≠ .reset ∧ frameFields s.cfg i = none)
    (h : exec i s = .next u) : s.buf ++ keptBy i s = consumedBy i s u ++ u.buf := by
  obtain ⟨hreset, hframe⟩ := hi
  cases i with
  | nop =>
    cases h
    exact buf_append_keptBy_of_buf_eq nofun nofun rfl
  | reset => exact absurd rfl hreset
  | push b =>
    rw [consumedBy_of_ne_decodeNext (i := .push b) nofun, List.nil_append, keptBy]
    obtain ⟨hroom, rfl⟩ | ⟨hfull, rfl⟩ := push_next_cases h
    · rw [if_pos hroom]
      rfl
    · rw [if_neg hfull, List.append_nil]
      rfl
  | decodeNext => rw [decodeNext_consumedBy_append h, keptBy_of_ne_push (i := .decodeNext) nofun, List.append_nil]
  | encode t p =>
    obtain ⟨-, f, rfl⟩ | ⟨-, rfl⟩ := encode_next_cases h <;>
      exact buf_append_keptBy_of_buf_eq nofun nofun rfl
  | connect | tempReport | statusReport | ack | unknown => cases hframe

/-! ## A sequence of commands -/

/-- R58 along a script: each command's share of the stream follows the share of those before it. -/
theorem runScript_buf_append_keptAlong {script : List Instr} {rs : List Response}
    (hscript : ∀ i ∈ script, i ≠ .reset ∧ frameFields s.cfg i = none)
    (h : runScript exec script s = some (rs, u)) :
    s.buf ++ keptAlong script s = consumedAlong script s ++ u.buf := by
  induction script generalizing s rs with
  | nil =>
    cases h
    exact List.append_nil _
  | cons i rest ih =>
    obtain ⟨t, rs', ht, hrest, -⟩ := runScript_cons_cases h
    obtain ⟨hi, hscript⟩ := List.forall_mem_cons.1 hscript
    rw [← exec_cfg ht] at hscript
    calc s.buf ++ keptAlong (i :: rest) s
        = (s.buf ++ keptBy i s) ++ keptAlong rest t := by rw [keptAlong_next ht, List.append_assoc]
      _ = consumedBy i s t ++ (t.buf ++ keptAlong rest t) := by
        rw [exec_buf_append_keptBy hi ht, List.append_assoc]
      _ = consumedAlong (i :: rest) s ++ u.buf := by
        rw [ih hscript hrest, consumedAlong_next ht, List.append_assoc]

theorem keptAlong_sublist (script : List Instr) (s : State) : (keptAlong script s).Sublist (pushedBytes script) := by
  induction script generalizing s with
  | nil => exact List.nil_sublist _
  | cons i rest ih =>
    rw [keptAlong, pushedBytes_cons]
    split
    · exact (keptBy_sublist i s).append (ih _)
    · exact List.nil_sublist _
    · exact List.nil_sublist _

/-- `OVF` is sticky until `RESET` (R33 (e)): 0 at the end of a script without it, it was 0 at the start. -/
theorem runScript_ovf_eq_false {script : List Instr} {rs : List Response} (hscript : ∀ i ∈ script, i ≠ .reset)
    (h : runScript exec script s = some (rs, u)) (hu : u.ovf = false) : s.ovf = false := by
  induction script generalizing s rs with
  | nil =>
    cases h
    exact hu
  | cons i rest ih =>
    obtain ⟨t, rs', ht, hrest, -⟩ := runScript_cons_cases h
    obtain ⟨hi, hscript⟩ := List.forall_mem_cons.1 hscript
    exact exec_ovf_eq_false hi ht (ih hscript hrest)

/-- With `OVF` 0 at the end no command of the script has dropped a byte. -/
theorem keptAlong_of_ovf_eq_false {script : List Instr} {rs : List Response} (hscript : ∀ i ∈ script, i ≠ .reset)
    (h : runScript exec script s = some (rs, u)) (hu : u.ovf = false) :
    keptAlong script s = pushedBytes script := by
  induction script generalizing s rs with
  | nil => rfl
  | cons i rest ih =>
    obtain ⟨t, rs', ht, hrest, -⟩ := runScript_cons_cases h
    obtain ⟨-, hscript⟩ := List.forall_mem_cons.1 hscript
    have htovf : t.ovf = false := runScript_ovf_eq_false hscript hrest hu
    rw [keptAlong_next ht, pushedBytes_cons, keptBy_of_ovf_eq_false ht htovf, ih hscript hrest]

/-- Settles O34: each command consumes from the front of `buf` and appends at its end, and a byte that is not appended
leaves `OVF` set for the rest of the run. -/
theorem bufferIsTheUnconsumedTailOfTheStream : Obligations.BufferIsTheUnconsumedTailOfTheStream := by
  intro s u script rs hscript h
  exact ⟨runScript_buf_append_keptAlong hscript h, keptAlong_sublist script s,
    keptAlong_of_ovf_eq_false (fun i hi => (hscript i hi).1) h⟩

end Sys2Proof.Machine
end

section
/-! PROOFS. The statement of 30_encoding.md: the numeric codes of the results (R80 to R83). -/

namespace Sys2Proof.Machine

/-- The codes 5, 6 and 7 of `F_KIND` are never produced (R82). -/
theorem kindCode_toNat_lt_five (k : Kind) : (kindCode k).toNat < 5 := by
  cases k <;> decide

/-- The code 3 of `TX_RES` is never produced (R83). -/
theorem TxRes.code_ne_three (r : TxRes) : r.code ≠ 3 := by
  cases r <;> decide

/-- Settles O49: each listed code is the defining equation of its constructor, and the codes that are never produced
are excluded kind by kind and result by result. -/
theorem resultCodesAreTheSpecs : Obligations.ResultCodesAreTheSpecs := by
  refine ⟨?res, ?reason, ?kind, ?txRes, ?push⟩
  case res => exact ⟨rfl, rfl, rfl, rfl⟩
  case reason => exact ⟨rfl, rfl, rfl, rfl⟩
  case kind => exact ⟨rfl, rfl, rfl, rfl, rfl, kindCode_toNat_lt_five⟩
  case txRes => exact ⟨rfl, rfl, rfl, TxRes.code_ne_three⟩
  case push => exact ⟨rfl, rfl⟩

end Sys2Proof.Machine
end

section
/-! PROOFS. The statements of 40_commands.md: `NOP` (R101), `RESET` (R102), `PUSH` (R103), and what `DECODE_NEXT`
depends on (R105). -/

namespace Sys2Proof.Machine

variable {s : State}

/-! ## `DECODE_NEXT` -/

/-- The results of a verdict, and the bytes it leaves, come from the verdict and its bytes, not from the state. -/
theorem State.after_results_eq (s s' : State) (view : Memory) (v : Verdict) :
    (s.after view v).response = (s'.after view v).response ∧ (s.after view v).buf = (s'.after view v).buf ∧
      (s.after view v).res = (s'.after view v).res ∧ (s.after view v).reason = (s'.after view v).reason ∧
      (s.after view v).capture = (s'.after view v).capture := by
  cases v <;> exact ⟨rfl, rfl, rfl, rfl, rfl⟩

/-- Settles O30: the verdict and the bytes it is on are computed from `buf` and `CFG`, and they alone decide the
results. -/
theorem decodeNextDependsOnBufferAndConfigAlone : Obligations.DecodeNextDependsOnBufferAndConfigAlone := by
  intro s s' hcfg hbuf
  have h' := decodeNext_after s'
  rw [hcfg, hbuf] at h'
  exact ⟨_, _, decodeNext_after s, h', State.after_results_eq s s' _ _⟩

/-- With nothing in `buf` the answer is `INCOMPLETE` (R122). -/
theorem decodeNext_of_buf_eq_nil (h : s.buf = []) :
    exec .decodeNext s = .next (s.withResult [] .incomplete .none none) := by
  rw [decodeNext_after, h]
  rfl

/-! ## `NOP`, `RESET` and `PUSH` -/

/-- Settles O1: `exec_nop`, `State.respond` writing the response alone. -/
theorem nopChangesNothing : Obligations.NopChangesNothing :=
  ⟨rfl, exec_nop⟩

/-- Settles O2: `RESET` ends in `State.resetWith` of the same `CFG`, whose `buf` is empty. -/
theorem resetRestoresEveryResetValue : Obligations.ResetRestoresEveryResetValue :=
  ⟨rfl, fun s => ⟨_, _, exec_reset s, rfl, rfl, rfl, rfl, rfl, rfl, rfl, rfl, rfl, rfl,
    decodeNext_of_buf_eq_nil rfl, rfl⟩⟩

/-- Settles O3: the case with room, and the case without it, of which a buffer at its capacity is one. -/
theorem pushAppendsOrSetsOvf : Obligations.PushAppendsOrSetsOvf := by
  intro s b
  refine ⟨rfl, ?room, ?full⟩
  case room => exact exec_push_room b
  case full =>
    intro hfull
    exact exec_push_full b (Nat.not_lt.2 hfull.ge)

end Sys2Proof.Machine
end

section
/-! PROOFS. The statements of 41_parser.md: the parser test by test (R120 to R130), and its laws (R121, R133 to
R138). -/

namespace Sys2Proof.Machine

variable {s u v : State} {c : Config} {m noise view more rest : Memory} {rs rs' : List Response}

/-! ## The verdict that `DECODE_NEXT` reaches -/

/-- What the parser finds in `m` after its scan (R120, R121). -/
def verdictAt (c : Config) (m : Memory) : Verdict := verdict c (Memory.scan c.start m)

/-- How many bytes of the scanned buffer a verdict takes (R22 (c) to (e)). -/
def Verdict.advance : Verdict → Nat
  | .incomplete => 0
  | .reject _ => 1
  | .accept f => f.fLen.toNat + 4

/-- The response a verdict gives (R86, R104). -/
def Verdict.response : Verdict → Response
  | .incomplete => .decoded .incomplete .none none
  | .reject reason => .decoded .invalid reason none
  | .accept f => frameResponse f

/-- What a `DECODE_NEXT` leaves of `m`. -/
def leftOf (c : Config) (m : Memory) : Memory := (Memory.scan c.start m).drop (verdictAt c m).advance

/-- Noise ahead of a view changes nothing of what the scan leaves (R121). -/
theorem scan_of_buf_eq (hbuf : s.buf = noise ++ view) (hnoise : s.cfg.start ∉ noise) :
    Memory.scan s.cfg.start s.buf = Memory.scan s.cfg.start view := by
  rw [hbuf, Memory.scan_append_of_notMem hnoise]

/-- `DECODE_NEXT` on noise and a view at which the scan stops: the verdict on the view decides. -/
theorem decodeNext_of_view (hbuf : s.buf = noise ++ view) (hnoise : s.cfg.start ∉ noise)
    (hview : Memory.scan s.cfg.start view = view) :
    exec .decodeNext s = .next (s.after view (verdict s.cfg view)) := by
  rw [decodeNext_after, scan_of_buf_eq hbuf hnoise, hview]

theorem decodeNext_buf (h : exec .decodeNext s = .next u) : u.buf = leftOf s.cfg s.buf := by
  rw [decodeNext_next h, leftOf, verdictAt]
  cases verdict s.cfg (Memory.scan s.cfg.start s.buf) <;> rfl

theorem decodeNext_response (h : exec .decodeNext s = .next u) :
    u.response = some (verdictAt s.cfg s.buf).response := by
  rw [decodeNext_next h, verdictAt]
  cases verdict s.cfg (Memory.scan s.cfg.start s.buf) <;> rfl

theorem decodeNext_res_eq_incomplete_iff (h : exec .decodeNext s = .next u) :
    u.res = .incomplete ↔ verdictAt s.cfg s.buf = .incomplete := by
  rw [decodeNext_next h, verdictAt]
  cases verdict s.cfg (Memory.scan s.cfg.start s.buf) <;> simp [State.after, State.withResult]

/-- The state in which an `INCOMPLETE` ends: only the scan has moved the cursor (R181). -/
theorem decodeNext_incomplete (h : exec .decodeNext s = .next u) (hu : u.res = .incomplete) :
    u = s.withResult (Memory.scan s.cfg.start s.buf) .incomplete .none none := by
  have hv := (decodeNext_res_eq_incomplete_iff h).1 hu
  rw [verdictAt] at hv
  rw [decodeNext_next h, hv]
  rfl

/-- Only an acceptance gives `FRAME` (R130). -/
theorem decodeNext_frame (h : exec .decodeNext s = .next u) (hu : u.res = .frame) :
    ∃ f, verdict s.cfg (Memory.scan s.cfg.start s.buf) = .accept f := by
  rw [decodeNext_next h] at hu
  cases hv : verdict s.cfg (Memory.scan s.cfg.start s.buf) with
  | accept f => exact ⟨f, rfl⟩
  | incomplete | reject =>
    rw [hv] at hu
    cases hu

/-! ## The verdict, test by test (R120) -/

/-- The header is not there yet (R122, R123). -/
theorem verdict_of_length_lt_three (h : view.length < 3) : verdict c view = .incomplete := by
  match view with
  | [] | [_] | [_, _] => rfl
  | _ :: _ :: _ :: rest =>
    simp only [List.length_cons] at h
    omega

/-- R126. -/
theorem verdict_of_maxLen_lt {b t n : Byte} (h : c.maxLen < n.toNat) :
    verdict c (b :: t :: n :: rest) = .reject .lenRange := by
  rw [verdict, if_pos h]

/-- The body is not wholly there (R127). -/
theorem verdict_of_body_missing {b t n : Byte} (hn : n.toNat ≤ c.maxLen) (h : rest.length < n.toNat + 1) :
    verdict c (b :: t :: n :: rest) = .incomplete := by
  rw [verdict, if_neg (Nat.not_lt.2 hn), List.getElem?_eq_none (Nat.lt_succ_iff.1 h)]

/-- What waits for more bytes is shorter than the longest frame (R136). -/
theorem length_lt_of_verdict_incomplete (h : verdict c view = .incomplete) : view.length < c.maxLen + 4 := by
  match view with
  | [] | [_] | [_, _] =>
    simp only [List.length_cons, List.length_nil]
    omega
  | b :: t :: n :: rest =>
    have hn : n.toNat ≤ c.maxLen := by
      by_contra hn
      rw [verdict_of_maxLen_lt (Nat.not_le.1 hn)] at h
      cases h
    have hbody : rest.length ≤ n.toNat := by
      by_contra hbody
      rw [verdict, if_neg (Nat.not_lt.2 hn), List.getElem?_eq_getElem (Nat.not_le.1 hbody)] at h
      dsimp only at h
      split at h
      · cases h
      split at h <;> cases h
    simp only [List.length_cons]
    omega

/-- What is accepted is an acceptable frame and what follows it (R130). -/
theorem verdict_accept_frame {f : Capture} (h : verdict c (c.start :: m) = .accept f) :
    Acceptable c (kindOf c f.fType) f.fType f.fPay f.fCk ∧
    ∃ rest, c.start :: m = frameBytes c f.fType f.fPay f.fCk ++ rest := by
  obtain ⟨rest, hview, hmax, hck, hpay, hsum, hkind, hmin⟩ := verdict_accept_start h
  obtain ⟨hstart, hm⟩ := List.cons.inj hview
  obtain ⟨hlt, hget⟩ := List.getElem?_eq_some_iff.1 hck
  have hlen : f.fPay.length = f.fLen.toNat := by rw [hpay, List.length_take, Nat.min_eq_left hlt.le]
  have hbyte : (BitVec.ofNat 8 f.fPay.length : Byte) = f.fLen := by rw [hlen, BitVec.ofNat_toNat, BitVec.setWidth_eq]
  refine ⟨⟨hlen ▸ hmax, ?_, ?_⟩, rest.drop (f.fLen.toNat + 1), ?_⟩
  · rwa [hlen, ← hkind]
  · rw [summedBytes, hbyte, hstart]
    exact hsum.symm
  · have hsplit : rest = f.fPay ++ f.fCk :: rest.drop (f.fLen.toNat + 1) := by
      rw [hpay, ← hget, ← List.drop_eq_getElem_cons hlt, List.take_append_drop]
    rw [hm, frameBytes, hbyte]
    simpa using hsplit

/-! ## The obligations on single tests -/

/-- Settles O16: all of `buf` is noise, and nothing is left to parse. -/
theorem noStartByteIsIncomplete : Obligations.NoStartByteIsIncomplete := by
  intro s hs
  exact decodeNext_of_view (view := []) (List.append_nil _).symm hs rfl

/-- Settles O17: the scan stops at the start byte and fewer than three bytes follow the cursor. -/
theorem partialHeaderIsIncomplete : Obligations.PartialHeaderIsIncomplete := by
  intro s noise tail hbuf hnoise htail
  rw [decodeNext_of_view hbuf hnoise (Memory.scan_start _ _),
    verdict_of_length_lt_three (by simp only [List.length_cons]; omega)]
  rfl

/-- Settles O18: the length's range is tested before anything behind the length byte is looked at. -/
theorem lengthOutOfRangeIsRejected : Obligations.LengthOutOfRangeIsRejected := by
  intro s noise rest t n hbuf hnoise hn
  rw [decodeNext_of_view hbuf hnoise (Memory.scan_start _ _), verdict_of_maxLen_lt hn]
  rfl

/-- Settles O19: a legal length, and no byte where the checksum byte would be. -/
theorem missingBodyIsIncomplete : Obligations.MissingBodyIsIncomplete := by
  intro s noise rest t n hbuf hnoise hn hbody
  rw [decodeNext_of_view hbuf hnoise (Memory.scan_start _ _), verdict_of_body_missing hn hbody]
  rfl

/-- `DECODE_NEXT` on noise and a whole frame of legal length: the verdict on that frame decides. -/
theorem decodeNext_of_frame {p : List Byte} {t ck : Byte} (hbuf : s.buf = noise ++ frameBytes s.cfg t p ck ++ rest)
    (hnoise : s.cfg.start ∉ noise) :
    exec .decodeNext s =
      .next (s.after (frameBytes s.cfg t p ck ++ rest) (verdict s.cfg (frameBytes s.cfg t p ck ++ rest))) :=
  decodeNext_of_view (hbuf.trans (List.append_assoc _ _ _)) hnoise (frameBytes_start _ _ _ _ _)

/-- Settles O20: the checksum test comes before the minimum-length test. -/
theorem wrongChecksumIsRejected : Obligations.WrongChecksumIsRejected := by
  intro s noise p rest t ck hc hbuf hnoise hp hck
  rw [decodeNext_of_frame hbuf hnoise, verdict_frame hc t p ck rest hp, if_pos hck.symm]
  rfl

/-- Settles O22: the verdict on an acceptable frame is to accept it, and an acceptance reads such a frame off the
view at which the scan stopped. -/
theorem acceptedFrameIsCapturedWhole : Obligations.AcceptedFrameIsCapturedWhole := by
  refine ⟨?accepted, ?onlySuch⟩
  case accepted =>
    intro s noise p rest t ck hc hbuf hnoise hframe
    obtain ⟨hp, hmin, hck⟩ := hframe
    have hdrop : (frameBytes s.cfg t p ck ++ rest).drop
        ((captureOf s.cfg (kindOf s.cfg t) t p ck).fLen.toNat + 4) = rest := by
      rw [captureOf, lengthByte_toNat hc hp, ← frameBytes_length s.cfg t p ck, List.drop_left]
    rw [decodeNext_of_frame hbuf hnoise, verdict_frame hc t p ck rest hp, if_neg (not_not.2 hck.symm),
      if_neg (Nat.not_lt.2 hmin), State.after, hdrop]
  case onlySuch =>
    intro s u h hu
    obtain ⟨f, hf⟩ := decodeNext_frame h hu
    obtain ⟨noise, hbuf, hnoise, hnil | ⟨m, hview⟩⟩ := Memory.scan_spec s.cfg.start s.buf
    · rw [hnil, verdict_nil] at hf
      cases hf
    · rw [hview] at hf hbuf
      obtain ⟨hframe, rest, hrest⟩ := verdict_accept_frame hf
      exact ⟨noise, f.fType, f.fPay, f.fCk, rest, by rw [hbuf, hrest, List.append_assoc], hnoise, hframe⟩

/-! ## Noise and `INCOMPLETE` (R121, R133, R136) -/

/-- `DECODE_NEXT` does what it does without the noise (R121). -/
theorem decodeNext_of_noise (hbuf : s.buf = noise ++ view) (hnoise : s.cfg.start ∉ noise) :
    exec .decodeNext s = exec .decodeNext { s with buf := view } := by
  rw [decodeNext_after, decodeNext_after, scan_of_buf_eq hbuf hnoise]
  cases verdict s.cfg (Memory.scan s.cfg.start view) <;> rfl

/-- Settles O25: the scan of noise and view is the scan of the view, which is the view where it begins with `START`. -/
theorem bytesBeforeTheStartByteLeaveNoTrace : Obligations.BytesBeforeTheStartByteLeaveNoTrace := by
  intro s noise view hbuf hnoise
  refine ⟨decodeNext_of_noise hbuf hnoise, fun hview u h hu => ?_⟩
  have hscan : Memory.scan s.cfg.start view = view := by
    obtain rfl | ⟨rest, rfl⟩ := hview
    · rfl
    · exact Memory.scan_start _ _
  rw [decodeNext_incomplete h hu, scan_of_buf_eq hbuf hnoise, hscan]
  rfl

/-- Settles O27: the scan has nothing more to consume, so the verdict is the same, and what it writes stands there. -/
theorem incompleteCarriesNothingOver : Obligations.IncompleteCarriesNothingOver := by
  intro s u h hu
  have hv := (decodeNext_res_eq_incomplete_iff h).1 hu
  have hend := decodeNext_incomplete h hu
  have hcfg := exec_cfg h
  have hscan : Memory.scan u.cfg.start u.buf = Memory.scan s.cfg.start s.buf := by
    rw [hcfg, hend]
    exact Memory.scan_idem _ _
  rw [decodeNext_after, hscan, hcfg]
  rw [verdictAt] at hv
  rw [hv, hend]
  rfl

/-- Settles O29: what waits for more bytes is shorter than the longest frame, for which `BUF_CAP` has room. -/
theorem thereIsRoomAfterIncomplete : Obligations.ThereIsRoomAfterIncomplete := by
  intro s u hc h hu
  have hlen : u.buf.length < s.cfg.maxLen + 4 := by
    rw [decodeNext_incomplete h hu]
    exact length_lt_of_verdict_incomplete ((decodeNext_res_eq_incomplete_iff h).1 hu)
  have hcap : u.buf.length < s.cfg.bufCap := hlen.trans_le (Config.room hc)
  have hcfg := exec_cfg h
  exact ⟨hcfg, hlen, hcap, fun b => exec_push_room b (hcfg ▸ hcap)⟩

/-! ## The parser that puts scanned bytes back (R135) -/

/-- A `DECODE_NEXT` of `P'` ends as the block's own does, but for the bytes put back on `INCOMPLETE`. -/
theorem putBack_decodeNext_cases (h : execPutBack .decodeNext s = .next u) :
    ∃ t, exec .decodeNext s = .next t ∧
      ((t.res = .incomplete ∧ u = { t with buf := s.buf }) ∨ (t.res ≠ .incomplete ∧ u = t)) := by
  refine ⟨_, decodeNext_after s, ?_⟩
  by_cases hres : (s.after (Memory.scan s.cfg.start s.buf) (verdict s.cfg (Memory.scan s.cfg.start s.buf))).res =
      .incomplete
  · rw [execPutBack_incomplete (decodeNext_after s) hres] at h
    cases h
    exact .inl ⟨hres, rfl⟩
  · rw [execPutBack_decided (decodeNext_after s) hres] at h
    cases h
    exact .inr ⟨hres, rfl⟩

/-- `OVF` is sticky under `P'` as well. -/
theorem putBack_ovf_eq_false {i : Instr} (hi : i = .decodeNext ∨ ∃ b, i = .push b)
    (h : execPutBack i s = .next u) (hu : u.ovf = false) : s.ovf = false := by
  obtain rfl | ⟨b, rfl⟩ := hi
  · obtain ⟨t, ht, ⟨-, rfl⟩ | ⟨-, rfl⟩⟩ := putBack_decodeNext_cases h <;>
      exact exec_ovf_eq_false (i := .decodeNext) nofun ht hu
  · rw [execPutBack_push] at h
    exact exec_ovf_eq_false (i := .push b) nofun h hu

theorem runScript_putBack_ovf_eq_false {script : List Instr} (hscript : isReception script = true)
    (h : runScript execPutBack script s = some (rs, u)) (hu : u.ovf = false) : s.ovf = false := by
  induction script generalizing s rs with
  | nil =>
    cases h
    exact hu
  | cons i rest ih =>
    obtain ⟨t, rs', ht, hrest, -⟩ := runScript_cons_cases h
    obtain ⟨hi, hscript⟩ := isReception_cons hscript
    exact putBack_ovf_eq_false hi ht (ih hscript hrest)

/-- `v` is `u` with noise put back ahead of its buffer: how the two parsers of R135 differ. -/
def NoiseAhead (u v : State) : Prop :=
  ∃ noise, v = { u with buf := noise ++ u.buf } ∧ u.cfg.start ∉ noise

theorem NoiseAhead.refl (s : State) : NoiseAhead s s := ⟨[], rfl, List.not_mem_nil⟩

/-- The two parsers side by side for one command that drops nothing. -/
theorem NoiseAhead.step {i : Instr} {v' : State} (huv : NoiseAhead u v) (hi : i = .decodeNext ∨ ∃ b, i = .push b)
    (h : execPutBack i v = .next v') (hovf : v'.ovf = false) :
    ∃ u', exec i u = .next u' ∧ NoiseAhead u' v' := by
  obtain ⟨noise, rfl, hnoise⟩ := huv
  obtain rfl | ⟨b, rfl⟩ := hi
  · obtain ⟨t, ht, hend⟩ := putBack_decodeNext_cases h
    have hsame := decodeNext_of_noise (s := { u with buf := noise ++ u.buf }) rfl hnoise
    refine ⟨t, hsame.symm.trans ht, ?_⟩
    obtain ⟨hres, rfl⟩ | ⟨-, rfl⟩ := hend
    · obtain ⟨skipped, hbuf, hskipped, -⟩ := Memory.scan_spec u.cfg.start (noise ++ u.buf)
      refine ⟨skipped, ?_, (exec_cfg ht).symm ▸ hskipped⟩
      have htbuf : t.buf = Memory.scan u.cfg.start (noise ++ u.buf) := by
        rw [decodeNext_incomplete ht hres]
        rfl
      rw [htbuf, ← hbuf]
    · exact .refl _
  · rw [execPutBack_push] at h
    obtain ⟨hroom, rfl⟩ | ⟨-, rfl⟩ := push_next_cases h
    · have hroom' : u.buf.length < u.cfg.bufCap := by
        simp only [List.length_append] at hroom
        omega
      exact ⟨_, exec_push_room b hroom', noise, by simp [State.respond], hnoise⟩
    · cases hovf

/-- The two parsers side by side along a script that drops nothing under `P'`. -/
theorem NoiseAhead.runScript {script : List Instr} {v' : State} (huv : NoiseAhead u v)
    (hscript : isReception script = true) (h : runScript execPutBack script v = some (rs, v'))
    (hovf : v'.ovf = false) : ∃ u', runScript exec script u = some (rs, u') ∧ NoiseAhead u' v' := by
  induction script generalizing u v rs with
  | nil =>
    cases h
    exact ⟨u, rfl, huv⟩
  | cons i rest ih =>
    obtain ⟨t, rs', ht, hrest, rfl⟩ := runScript_cons_cases h
    obtain ⟨hi, hscript⟩ := isReception_cons hscript
    obtain ⟨x, hx, hxt⟩ := huv.step hi ht (runScript_putBack_ovf_eq_false hscript hrest hovf)
    obtain ⟨u', hu', hend⟩ := ih hxt hscript hrest
    obtain ⟨noise, rfl, -⟩ := hxt
    exact ⟨u', by rw [runScript_next hx, hu']; rfl, hend⟩

/-- Settles O31: along the script the parser `P'` holds what the block holds, with noise ahead of it. -/
theorem consumingInTheScanChangesNoResult : Obligations.ConsumingInTheScanChangesNoResult := by
  intro c script rs v _ hscript h hovf
  obtain ⟨u, hu, noise, rfl, -⟩ := (NoiseAhead.refl _).runScript hscript h hovf
  refine ⟨u, hu, rfl, rfl, rfl, ?_⟩
  rw [List.length_append]
  exact Nat.le_add_left _ _

/-! ## `RUN` (R132) -/

/-- `RUN(m) = (rs, rest)` (R132): the verdicts other than `INCOMPLETE`, one after another, and the residue. -/
inductive Runs (c : Config) : Memory → List Response → Memory → Prop
  | stop {m : Memory} (h : verdictAt c m = .incomplete) : Runs c m [] (Memory.scan c.start m)
  | step {m rest : Memory} {rs : List Response} (h : verdictAt c m ≠ .incomplete)
      (next : Runs c (leftOf c m) rs rest) : Runs c m ((verdictAt c m).response :: rs) rest

theorem Verdict.advance_pos {v : Verdict} (h : v ≠ .incomplete) : 1 ≤ v.advance := by
  cases v with
  | incomplete => exact absurd rfl h
  | reject | accept => exact Nat.le_add_left _ _

/-- A decided verdict takes a byte, and three more if it is a frame (R134). -/
theorem Verdict.isFrame_le_advance {v : Verdict} (h : v ≠ .incomplete) :
    1 + 3 * ([v.response].filter Response.isFrame).length ≤ v.advance := by
  cases v with
  | incomplete => exact absurd rfl h
  | reject => exact Nat.le_refl 1
  | accept f => exact Nat.le_add_left 4 _

theorem advance_le_length (c : Config) (view : Memory) : (verdict c view).advance ≤ view.length := by
  cases hv : verdict c view with
  | incomplete => exact Nat.zero_le _
  | reject => exact verdict_reject_length hv
  | accept => exact verdict_accept_length hv

/-- A `DECODE_NEXT` makes the buffer shorter by at least what its verdict takes (R134). -/
theorem leftOf_length (c : Config) (m : Memory) : (leftOf c m).length + (verdictAt c m).advance ≤ m.length := by
  have hscan := Memory.scan_length_le c.start m
  have hadv := advance_le_length c (Memory.scan c.start m)
  rw [leftOf, List.length_drop, verdictAt]
  omega

/-- `RUN` is defined on every byte string (R132, R134). -/
theorem Runs.total (c : Config) (m : Memory) : ∃ rs rest, Runs c m rs rest := by
  by_cases h : verdictAt c m = .incomplete
  · exact ⟨_, _, .stop h⟩
  · have hlen := leftOf_length c m
    have hpos := Verdict.advance_pos h
    obtain ⟨rs, rest, hrun⟩ := Runs.total c (leftOf c m)
    exact ⟨_, _, .step h hrun⟩
termination_by m.length
decreasing_by omega

/-- Each result costs a byte, a frame three more (R134). -/
theorem Runs.length_le (h : Runs c m rs rest) :
    rs.length + 3 * (rs.filter Response.isFrame).length ≤ m.length := by
  induction h with
  | stop => exact Nat.zero_le _
  | @step m rest rs hv _ ih =>
    have hlen := leftOf_length c m
    have hcost := Verdict.isFrame_le_advance hv
    rw [← List.singleton_append, List.filter_append, List.length_append, List.length_append, List.length_singleton]
    omega

theorem Runs.length_lt (h : Runs c m rs rest) : rs.length < m.length + 1 := by
  have := h.length_le
  omega

/-- `DRAIN` gives the results of `RUN` and then `INCOMPLETE` (R88, R132). -/
theorem Runs.drain (h : Runs c m rs rest) {fuel : Nat} (hfuel : rs.length < fuel) (hcfg : s.cfg = c)
    (hbuf : s.buf = m) :
    ∃ t, drain fuel s = some (rs ++ [.decoded .incomplete .none none], t) ∧ t.res = .incomplete ∧ t.buf = rest := by
  obtain ⟨fuel, rfl⟩ := Nat.exists_eq_add_one_of_ne_zero (Nat.ne_zero_of_lt hfuel)
  induction h generalizing s fuel with
  | @stop m hv =>
    subst hcfg hbuf
    have ht := decodeNext_after s
    have hres := (decodeNext_res_eq_incomplete_iff ht).2 hv
    have hresp := decodeNext_response ht
    rw [hv] at hresp
    refine ⟨_, (drain_stop ht hres fuel).trans ?_, hres, ?_⟩
    · rw [hresp]
      rfl
    · rw [decodeNext_buf ht, leftOf, hv]
      rfl
  | @step m rest rs hv _ ih =>
    subst hcfg hbuf
    have ht := decodeNext_after s
    have hres := mt (decodeNext_res_eq_incomplete_iff ht).1 hv
    have hresp := decodeNext_response ht
    simp only [List.length_cons, Nat.add_lt_add_iff_right] at hfuel
    obtain ⟨fuel, rfl⟩ := Nat.exists_eq_add_one_of_ne_zero (Nat.ne_zero_of_lt hfuel)
    obtain ⟨t, hdrain, hend⟩ := ih (exec_cfg ht) (decodeNext_buf ht) fuel hfuel
    refine ⟨t, ?_, hend⟩
    rw [drain_go ht hres, hdrain, hresp]
    rfl

/-- A `DRAIN` with a command for each byte and one more gives what `RUN` gives. -/
theorem exists_runs_of_drain (h : drain (s.buf.length + 1) s = some (rs, u)) :
    ∃ rs', Runs s.cfg s.buf rs' u.buf ∧ rs = rs' ++ [.decoded .incomplete .none none] := by
  obtain ⟨rs', rest, hrun⟩ := Runs.total s.cfg s.buf
  obtain ⟨t, hdrain, -, rfl⟩ := hrun.drain (s := s) hrun.length_lt rfl rfl
  cases hdrain.symm.trans h
  exact ⟨rs', hrun, rfl⟩

theorem runOf_eq_of_runs (h : Runs c m rs rest) : runOf c m = some (rs, rest) := by
  obtain ⟨t, hdrain, -, rfl⟩ := h.drain (s := { State.resetWith c with buf := m }) h.length_lt rfl rfl
  rw [runOf, hdrain, Option.map_some, List.dropLast_concat]

/-- `RUN` as the model computes it is the relation. -/
theorem runOf_eq_some_iff : runOf c m = some (rs, rest) ↔ Runs c m rs rest := by
  refine ⟨fun h => ?_, runOf_eq_of_runs⟩
  obtain ⟨rs', rest', hrun⟩ := Runs.total c m
  cases (runOf_eq_of_runs hrun).symm.trans h
  exact hrun

/-- Settles O28: `FRAME` takes at least four bytes and `INVALID` one (R22), and `DRAIN` is bounded by what `RUN` costs. -/
theorem decodingMakesProgressAndDrainEnds : Obligations.DecodingMakesProgressAndDrainEnds := by
  refine ⟨?progress, ?drain⟩
  case progress =>
    intro s u h
    obtain ⟨noise, view, hbuf, -, -, hend⟩ := cursorMovesOnlyAsItsCommandSays.1 s u h
    rw [hbuf, List.length_append]
    obtain ⟨hres, hleft⟩ | ⟨hres, hne, hleft⟩ | ⟨hres, f, -, hle, hleft⟩ := hend
    · rw [hres, hleft]
      exact ⟨Nat.le_add_left _ _, nofun, nofun⟩
    · have hpos := List.length_pos_iff.2 hne
      rw [hres, hleft, List.length_drop]
      exact ⟨by omega, nofun, fun _ => by omega⟩
    · rw [hres, hleft, List.length_drop]
      exact ⟨by omega, fun _ => by omega, nofun⟩
  case drain =>
    intro s
    obtain ⟨rs, rest, hrun⟩ := Runs.total s.cfg s.buf
    have hlen := hrun.length_le
    obtain ⟨t, hdrain, hres, -⟩ := hrun.drain (s := s) hrun.length_lt rfl rfl
    refine ⟨_, t, hdrain, hres, ?_, List.getLast?_concat, ?_⟩
    · rw [List.length_append, List.length_singleton]
      omega
    · have hframes : (rs.filter Response.isFrame).length ≤ rs.length := List.length_filter_le _ _
      rw [List.filter_append, List.length_append]
      simp only [Response.isFrame, List.filter_cons, List.filter_nil, Bool.false_eq_true, if_false, List.length_nil]
      omega

/-- `RUN` sees of its bytes only what the scan leaves (R121). -/
theorem Runs.congr_scan {m' : Memory} (h : Runs c m rs rest)
    (hscan : Memory.scan c.start m' = Memory.scan c.start m) : Runs c m' rs rest := by
  have hverdict : verdictAt c m' = verdictAt c m := congrArg (verdict c) hscan
  have hleft : leftOf c m' = leftOf c m := by rw [leftOf, leftOf, hverdict, hscan]
  cases h with
  | stop hv => exact hscan ▸ .stop (hverdict.trans hv)
  | step hv hnext => exact hverdict ▸ .step (hverdict ▸ hv) (hleft ▸ hnext)

/-! ## Resynchronisation (R137) -/

/-- A rejectable candidate at the cursor is rejected. -/
theorem verdict_of_rejectable (h : Rejectable c (c.start :: m) 0) :
    ∃ reason, verdict c (c.start :: m) = .reject reason := by
  obtain ⟨t, n, ht, hn, hcause⟩ := h
  obtain ⟨rest, rfl⟩ : ∃ rest, m = t :: n :: rest := by
    match m with
    | [] => cases ht
    | [_] => cases hn
    | _ :: _ :: rest =>
      cases ht
      cases hn
      exact ⟨rest, rfl⟩
  by_cases hmax : c.maxLen < n.toNat
  · exact ⟨_, verdict_of_maxLen_lt hmax⟩
  · obtain ⟨ck, hck, hfails⟩ := hcause.resolve_left hmax
    have hck : rest[n.toNat]? = some ck := by simpa using hck
    have hsummed : ((c.start :: t :: n :: rest).drop 0).take (n.toNat + 3) = [c.start, t, n] ++ rest.take n.toNat :=
      rfl
    rw [hsummed] at hfails
    rw [verdict, if_neg hmax, hck]
    dsimp only
    split
    · exact ⟨_, rfl⟩
    · next hsum =>
      rw [not_not] at hsum
      have hvalid := (valid_iff c _ ck).2 hsum
      rw [if_pos (hfails.resolve_left (by rw [hvalid]; nofun))]
      exact ⟨_, rfl⟩

/-- Where a candidate stands does not matter. -/
theorem Rejectable.tail {b : Byte} {j : Nat} (h : Rejectable c (b :: m) (j + 1)) : Rejectable c m j := by
  obtain ⟨t, n, ht, hn, hcause⟩ := h
  refine ⟨t, n, by simpa using ht, by simpa using hn, hcause.imp_right ?_⟩
  rintro ⟨ck, hck, hfails⟩
  refine ⟨ck, ?_, by simpa using hfails⟩
  rwa [show j + 1 + n.toNat + 3 = (j + n.toNat + 3) + 1 by omega, List.getElem?_cons_succ] at hck

/-- `RUN` on garbage whose false starts are all rejectable, and then `v`: one `INVALID` for each false start, and then
`RUN(v)`. -/
theorem Runs.behind_garbage {v : Memory} (hrun : Runs c v rs rest) (g : Memory)
    (hg : ∀ j, j < g.length → (g ++ v)[j]? = some c.start → Rejectable c (g ++ v) j) :
    ∃ invalids : List Response, (∀ r ∈ invalids, r.isInvalid) ∧ invalids.length = g.count c.start ∧
      Runs c (g ++ v) (invalids ++ rs) rest := by
  induction g with
  | nil => exact ⟨[], nofun, rfl, hrun⟩
  | cons b g ih =>
    obtain ⟨invalids, hinv, hcount, hruns⟩ :=
      ih fun j hj hstart => (hg (j + 1) (Nat.succ_lt_succ hj) hstart).tail
    by_cases hb : b = c.start
    · subst hb
      obtain ⟨reason, hreject⟩ := verdict_of_rejectable (hg 0 (Nat.succ_pos _) rfl)
      have hscan : Memory.scan c.start (c.start :: (g ++ v)) = c.start :: (g ++ v) := Memory.scan_start _ _
      have hverdict : verdictAt c (c.start :: (g ++ v)) = .reject reason := (congrArg _ hscan).trans hreject
      have hleft : leftOf c (c.start :: (g ++ v)) = g ++ v := by
        rw [leftOf, hverdict, hscan]
        rfl
      refine ⟨.decoded .invalid reason none :: invalids, List.forall_mem_cons.2 ⟨⟨reason, rfl⟩, hinv⟩, ?_, ?_⟩
      · rw [List.length_cons, hcount, List.count_cons_self]
      · have hstep := Runs.step (c := c) (m := c.start :: (g ++ v)) (by rw [hverdict]; nofun) (hleft.symm ▸ hruns)
        rwa [hverdict] at hstep
    · refine ⟨invalids, hinv, by rw [hcount, List.count_cons_of_ne hb], hruns.congr_scan ?_⟩
      exact Memory.scan_append_of_notMem (noise := [b]) (by simpa using Ne.symm hb) _

/-- Settles O32: `RUN` of `g ++ v` is `RUN` of `v` behind one `INVALID` for each false start. -/
theorem resynchronisationFindsTheGenuineFrame : Obligations.ResynchronisationFindsTheGenuineFrame := by
  intro c g v f _ hv hg
  obtain ⟨invalids, hinv, hcount, hruns⟩ := (runOf_eq_some_iff.1 hv).behind_garbage g hg
  refine ⟨invalids, hinv, ?_, runOf_eq_of_runs hruns⟩
  rw [hcount, falseStarts, List.take_left]

/-! ## Independence from chunking (R138) -/

theorem isReception_ne_reset {script : List Instr} (h : isReception script = true) : ∀ i ∈ script, i ≠ .reset := by
  rintro i hi rfl
  cases List.all_eq_true.1 h _ hi

theorem results_append (rs rs' : List Response) : results (rs ++ rs') = results rs ++ results rs' :=
  List.filter_append _ _

theorem results_response {v : Verdict} (h : v ≠ .incomplete) : results [v.response] = [v.response] := by
  cases v with
  | incomplete => exact absurd rfl h
  | reject | accept => rfl

theorem runScript_cfg {script : List Instr} (h : runScript exec script s = some (rs, u)) : u.cfg = s.cfg := by
  induction script generalizing s rs with
  | nil =>
    cases h
    rfl
  | cons i rest ih =>
    obtain ⟨t, rs', ht, hrest, -⟩ := runScript_cons_cases h
    exact (ih hrest).trans (exec_cfg ht)

/-- `RUN` lists results other than `INCOMPLETE` only. -/
theorem Runs.results_eq (h : Runs c m rs rest) : results rs = rs := by
  induction h with
  | stop => rfl
  | step hv _ ih => rw [← List.singleton_append, results_append, results_response hv, ih]

/-- Bytes behind a decided candidate change neither the verdict nor what it takes. -/
theorem decided_append (h : verdictAt c m ≠ .incomplete) (more : Memory) :
    verdictAt c (m ++ more) = verdictAt c m ∧ leftOf c (m ++ more) = leftOf c m ++ more := by
  have hne : Memory.scan c.start m ≠ [] := by
    intro hnil
    rw [verdictAt, hnil] at h
    exact h rfl
  have hscan := Memory.scan_append_of_ne_nil hne more
  have hverdict : verdictAt c (m ++ more) = verdictAt c m := by
    rw [verdictAt, hscan]
    exact verdict_append h more
  refine ⟨hverdict, ?_⟩
  rw [leftOf, hverdict, hscan]
  exact List.drop_append_of_le_length (advance_le_length _ _)

/-- A `DECODE_NEXT` before more bytes arrive takes nothing away from `RUN`: it gives its first result early, or
`INCOMPLETE` and no result. -/
theorem Runs.of_leftOf (h : Runs c (leftOf c m ++ more) rs rest) :
    Runs c (m ++ more) (results [(verdictAt c m).response] ++ rs) rest := by
  by_cases hv : verdictAt c m = .incomplete
  · rw [leftOf, hv] at h
    rw [hv]
    exact h.congr_scan (Memory.scan_append_scan _ _ _).symm
  · obtain ⟨hverdict, hleft⟩ := decided_append hv more
    rw [results_response hv, ← hverdict]
    exact .step (hverdict ▸ hv) (hleft ▸ h)

/-- The results of a script that drops nothing and of `RUN` on what it leaves are those of `RUN` on what was there and
all that was pushed. -/
theorem Runs.of_script {script : List Instr} (hscript : isReception script = true)
    (h : runScript exec script s = some (rs, u)) (hovf : u.ovf = false) (hrun : Runs s.cfg u.buf rs' rest) :
    Runs s.cfg (s.buf ++ pushedBytes script) (results rs ++ rs') rest := by
  induction script generalizing s rs with
  | nil =>
    cases h
    rwa [pushedBytes, List.filterMap_nil, List.append_nil]
  | cons i script ih =>
    obtain ⟨t, rs'', ht, htail, rfl⟩ := runScript_cons_cases h
    obtain ⟨hi, hscript⟩ := isReception_cons hscript
    have htovf := runScript_ovf_eq_false (isReception_ne_reset hscript) htail hovf
    have hrest := ih hscript htail (exec_cfg ht ▸ hrun)
    rw [exec_cfg ht] at hrest
    rw [results_append, List.append_assoc]
    obtain rfl | ⟨b, rfl⟩ := hi
    · rw [decodeNext_buf ht] at hrest
      rw [decodeNext_response ht]
      exact hrest.of_leftOf
    · obtain ⟨-, rfl⟩ | ⟨-, rfl⟩ := push_next_cases ht
      · rw [pushedBytes_cons, ← List.append_assoc]
        exact hrest
      · cases htovf

/-- Settles O33: each `DECODE_NEXT` of the script gives early what `RUN` of the whole stream gives. -/
theorem resultsDoNotDependOnChunking : Obligations.ResultsDoNotDependOnChunking := by
  intro c script rs rs' u v _ hscript h hovf hdrain
  obtain ⟨final, hrun, rfl⟩ := exists_runs_of_drain hdrain
  have hcfg : u.cfg = c := runScript_cfg h
  rw [hcfg] at hrun
  have hresults : results (rs ++ (final ++ [.decoded .incomplete .none none])) = results rs ++ final := by
    rw [results_append, results_append, hrun.results_eq]
    exact congrArg _ (List.append_nil _)
  rw [hresults]
  exact runOf_eq_of_runs (Runs.of_script hscript h hovf hrun)

end Sys2Proof.Machine
end

section
/-! PROOFS. The statements of 42_checksum.md: the sum (R140, R150) and what the checksum test detects (R147, R148). -/

namespace Sys2Proof.Machine

variable {c : Config} {s s' : List Byte} {ck b : Byte} {i : Nat}

/-! ## The sum -/

/-- The checksum unit's sum is the library's sum of a list in the ring of bytes. -/
theorem sum8_eq_sum (s : List Byte) : sum8 s = s.sum := by
  induction s with
  | nil => rfl
  | cons b s ih => rw [sum8_cons, ih, List.sum_cons]

/-- Settles O9: by induction on the bytes, each addition being one modulo 256. -/
theorem sum8IsTheSumModulo256 : Obligations.Sum8IsTheSumModulo256 := by
  intro s
  induction s with
  | nil => rfl
  | cons b s ih => rw [sum8_cons, BitVec.toNat_add, ih, List.map_cons, List.sum_cons, Nat.add_mod_mod]

theorem toNat_sum8_append (s t : List Byte) :
    (sum8 (s ++ t)).toNat = ((sum8 s).toNat + (sum8 t).toNat) % 256 := by
  rw [sum8_append, BitVec.toNat_add]

theorem sum8_perm (h : s.Perm s') : sum8 s = sum8 s' := by
  rw [sum8_eq_sum, sum8_eq_sum, h.sum_eq]

/-- The checksum of a frame without payload (R150 (e)). -/
theorem checksum_empty_payload (c : Config) (t : Byte) :
    checksum c [c.start, t, 0] = c.fold (BitVec.ofNat 8 ((c.start.toNat + t.toNat) % 256)) := by
  have hsum : sum8 [c.start, t, 0] = BitVec.ofNat 8 ((c.start.toNat + t.toNat) % 256) := by
    apply BitVec.eq_of_toNat_eq
    simp [sum8_cons]
  rw [checksum, hsum]

/-- The checksum test under the identity fold, with the checksum byte among the summed ones (R150 (f)): the sum is `ck`
exactly when it becomes `2 * ck` with `ck` added. -/
theorem valid_iff_of_fold_id (hfold : ∀ x, c.fold x = x) :
    valid c s ck = true ↔ (sum8 (s ++ [ck])).toNat = 2 * ck.toNat % 256 := by
  rw [valid_iff, hfold, toNat_sum8_append, sum8_singleton, ← BitVec.toNat_inj]
  have hs := (sum8 s).isLt
  have hck := ck.isLt
  omega

/-- Settles O10: (a) to (f), of which (b) is (a) for a single byte and (d) the width of a byte. -/
theorem sum8ArithmeticFacts : Obligations.Sum8ArithmeticFacts := by
  refine ⟨toNat_sum8_append, ?oneMore, fun _ _ => sum8_perm, fun s => Nat.le_of_lt_succ (sum8 s).isLt,
    checksum_empty_payload, fun _ _ _ => valid_iff_of_fold_id⟩
  case oneMore =>
    intro s b
    rw [toNat_sum8_append, sum8_singleton]

/-! ## What the checksum test detects -/

/-- Writing a byte at one position keeps the sum exactly when it is the byte that stood there. -/
theorem sum8_set_eq_iff (hi : i < s.length) : sum8 (s.set i b) = sum8 s ↔ b = s[i] := by
  rw [sum8_eq_sum, sum8_eq_sum, List.sum_set', dif_pos hi, add_eq_left, neg_add_eq_zero, eq_comm]

/-- Against the checksum of `s` exactly the byte sequences with the sum of `s` pass, the fold being injective (R149). -/
theorem valid_checksum_iff (hc : c.wf = true) : valid c s' (checksum c s) = true ↔ sum8 s' = sum8 s := by
  rw [valid_iff, checksum, (c.fold_injective hc).eq_iff]

/-- Inverting a non-empty set of bits changes a byte. -/
theorem xor_ne_self (b : Byte) {m : Byte} (hm : m ≠ 0) : b ^^^ m ≠ b := fun h =>
  hm ((BitVec.xor_right_inj b).1 (h.trans BitVec.xor_zero.symm))

theorem twoPow_ne_zero {k : Nat} (hk : k < 8) : BitVec.twoPow 8 k ≠ 0 := by
  rw [← BitVec.toNat_ne_iff_ne, BitVec.toNat_twoPow_of_lt hk]
  exact (Nat.two_pow_pos k).ne'

/-- Settles O11: the inverted bit changes its byte, so the sum, so the checksum. -/
theorem singleBitErrorsAreDetected : Obligations.SingleBitErrorsAreDetected := by
  intro c s i k hi hc hk
  rw [Bool.eq_false_iff, ne_eq, valid_checksum_iff hc, sum8_set_eq_iff hi]
  exact xor_ne_self _ (twoPow_ne_zero hk)

/-- Settles O12: the test is an equation with `CK(s)`, and inverting some of its bits gives another byte. -/
theorem exactlyOneChecksumBytePasses : Obligations.ExactlyOneChecksumBytePasses := by
  intro c s
  have hpass : ∀ ck, valid c s ck = true ↔ ck = checksum c s := fun ck => (valid_iff c s ck).trans eq_comm
  refine ⟨hpass, fun m hm => ?_⟩
  rw [Bool.eq_false_iff, ne_eq, hpass]
  exact xor_ne_self _ hm

end Sys2Proof.Machine
end

section
/-! PROOFS. The statements of 43_dispatch.md: `KIND` (R160), `MINLEN` (R162), and the acceptance of a frame of unknown
type (R161). -/

namespace Sys2Proof.Machine

/-- Settles O14: the four constants are pairwise distinct (R6), and every other byte misses the table. -/
theorem kindFollowsTheTypeByte : Obligations.KindFollowsTheTypeByte := by
  intro c hc
  exact ⟨kindOf_connect c, kindOf_temp hc, kindOf_status hc, kindOf_ack hc, fun _ => kindOf_other⟩

/-- Settles O15: the minimums are the defining equations of `minLen`; that none is above `MAX_LEN` is R6. -/
theorem minimumLengthsAreTheConfigurations : Obligations.MinimumLengthsAreTheConfigurations := by
  intro c hc
  exact ⟨rfl, rfl, rfl, rfl, rfl, minLen_le hc⟩

/-- Settles O23: `KIND` of the type byte being `UNKNOWN`, such a frame is captured whole like any other (R130). -/
theorem unknownTypeIsNeverAnError : Obligations.UnknownTypeIsNeverAnError := by
  intro s noise p rest t ck hc hbuf hnoise ht hframe
  have hkind : kindOf s.cfg t = .unknown := kindOf_other ht
  have hnext := acceptedFrameIsCapturedWhole.1 s noise p rest t ck hc hbuf hnoise (hkind ▸ hframe)
  rw [hkind] at hnext
  exact ⟨_, hnext, rfl, rfl, _, rfl, rfl, rfl, rfl⟩

end Sys2Proof.Machine
end

section
/-! PROOFS. The statements of 44_encode.md: what `ENCODE` answers (R171, R172), that its bytes determine its operands
(R175), and the round trip of `ENCODE` and `DECODE_NEXT` (R174). -/

namespace Sys2Proof.Machine

variable {c : Config} {s u v : State} {t t' : Byte} {p p' bytes : List Byte} {rs : List Response}

/-! ## The transmit registers -/

/-- The transmit registers' content after a successful `ENCODE t, p` (R172). -/
def transmitOf (c : Config) (t : Byte) (p : List Byte) : Transmit where
  txLen := BitVec.ofNat 9 p.length + 4
  tx := frameLiteral c t p

/-- `TX_LEN` has 9 bits, so that it holds the length of the longest frame (R27). -/
theorem transmitOf_txLen_toNat (hc : c.wf = true) (hp : p.length ≤ c.maxLen) :
    (transmitOf c t p).txLen.toNat = p.length + 4 := by
  have hmax := Config.maxLen_le hc
  rw [transmitOf, BitVec.toNat_add, BitVec.toNat_ofNat, show (4 : Word9).toNat = 4 from rfl]
  omega

theorem frameLiteral_eq_append (c : Config) (t : Byte) (p : List Byte) :
    frameLiteral c t p = summedBytes c t p ++ [checksum c (summedBytes c t p)] := rfl

/-- The last byte of `TX` is the checksum byte (R172). -/
theorem transmitOf_tx_last (hc : c.wf = true) (hp : p.length ≤ c.maxLen) :
    (transmitOf c t p).tx[(transmitOf c t p).txLen.toNat - 1]? = some (checksum c (summedBytes c t p)) := by
  have hlast : (transmitOf c t p).txLen.toNat - 1 = (summedBytes c t p).length := by
    rw [transmitOf_txLen_toNat hc hp]
    simp [summedBytes]
  rw [hlast]
  exact List.getElem?_concat_length

/-- A frame's bytes determine its type byte and its payload, whose end is one byte before the frame's (R71). -/
theorem frameBytes_inj {ck ck' : Byte} (h : frameBytes c t p ck = frameBytes c t' p' ck') : t = t' ∧ p = p' := by
  obtain ⟨hsummed, -⟩ := List.append_inj' h rfl
  obtain ⟨hheader, hpay⟩ := List.append_inj hsummed rfl
  exact ⟨(List.cons.inj (List.cons.inj hheader).2).1, hpay⟩

/-! ## What `ENCODE` answers -/

/-- A successful `ENCODE` writes the encode result registers and the response, and empties its scratch register. -/
theorem exec_encode_transmitOf (t : Byte) (hp : p.length ≤ s.cfg.maxLen) :
    exec (.encode t p) s = .next (s.endEncode.encoded .ok (some (transmitOf s.cfg t p))) :=
  exec_encode_ok t hp

theorem encode_next (hp : p.length ≤ s.cfg.maxLen) (h : exec (.encode t p) s = .next u) :
    u = s.endEncode.encoded .ok (some (transmitOf s.cfg t p)) := by
  rw [exec_encode_transmitOf t hp] at h
  cases h
  rfl

/-- Settles O4: the witness is the content of the transmit registers, whose length is taken in 9 bits. -/
theorem encodeBuildsTheFrame : Obligations.EncodeBuildsTheFrame := by
  intro s t p hc hp
  exact ⟨transmitOf s.cfg t p, transmitOf_txLen_toNat hc hp, frameLiteral_eq_append s.cfg t p,
    exec_encode_transmitOf t hp⟩

/-- Settles O5: a payload above 255 bytes is above `MAX_LEN` too, which is at most 255 (R6). -/
theorem encodeRefusesAnOverlongPayload : Obligations.EncodeRefusesAnOverlongPayload := by
  intro s t p h
  have hlong : s.cfg.maxLen < p.length := by
    obtain hlong | ⟨hc, hlong⟩ := h
    · exact hlong
    · exact (Config.maxLen_le hc).trans_lt hlong
  exact exec_encode_long t hlong

/-- Settles O6: each `TX` holds the frame of its operands, and a frame's bytes determine them. -/
theorem encodeIsInjective : Obligations.EncodeIsInjective := by
  intro s s' u u' t t' p p' _ hcfg hp hp' hu hu' htx
  rw [← hcfg] at hp'
  obtain rfl := encode_next hp hu
  obtain rfl := encode_next hp' hu'
  rw [hcfg] at htx
  exact frameBytes_inj (Option.some.inj htx)

/-! ## The round trip (R174) -/

/-- A `PUSH` that gave no answer but `OK` has appended its byte (R103). -/
theorem push_buf_of_pushed {b : Byte} (h : exec (.push b) s = .next u) (hu : ∀ r ∈ u.response.toList, r = .pushed) :
    u.buf = s.buf ++ [b] := by
  obtain ⟨-, rfl⟩ | ⟨-, rfl⟩ := push_next_cases h
  · rfl
  · cases hu .dropped (by simp)

/-- Bytes fed with none dropped stand behind what was in the buffer, in their order (R103). -/
theorem runScript_feed_buf (h : runScript exec (feed bytes) s = some (rs, u)) (hrs : ∀ r ∈ rs, r = .pushed) :
    u.buf = s.buf ++ bytes := by
  induction bytes generalizing s rs with
  | nil =>
    cases h
    exact (List.append_nil _).symm
  | cons b bytes ih =>
    obtain ⟨m, rs', hm, hrest, rfl⟩ := runScript_cons_cases h
    obtain ⟨hfirst, hlater⟩ := List.forall_mem_append.1 hrs
    rw [ih hrest hlater, push_buf_of_pushed hm hfirst, List.append_assoc]
    rfl

/-- A whole frame with the right checksum byte and a payload below its kind's minimum costs its start byte (R183). -/
theorem decodeNext_of_short_frame {noise rest : Memory} {ck : Byte} (hc : s.cfg.wf = true)
    (hp : p.length ≤ s.cfg.maxLen) (hbuf : s.buf = noise ++ frameBytes s.cfg t p ck ++ rest)
    (hnoise : s.cfg.start ∉ noise) (hck : ck = checksum s.cfg (summedBytes s.cfg t p))
    (hshort : p.length < minLen s.cfg (kindOf s.cfg t)) :
    exec .decodeNext s =
      .next (s.withResult ((frameBytes s.cfg t p ck).tail ++ rest) .invalid .shortPayload none) := by
  rw [decodeNext_of_frame hbuf hnoise, verdict_frame hc t p ck rest hp, if_neg (not_not.2 hck.symm), if_pos hshort]
  rfl

/-- Settles O7: the fed bytes stand behind what was in the buffer, which is noise to the scan, and nothing follows
them; of the parser's tests only the one on the kind's minimum length can fail. -/
theorem encodedFramesDecodeToThemselves : Obligations.EncodedFramesDecodeToThemselves := by
  intro s u v t p f rs hc hp hnoise hu hf hrun hrs
  obtain rfl := encode_next hp hu
  obtain rfl : transmitOf s.cfg t p = f := Option.some.inj hf
  have hcfg : v.cfg = s.cfg := by simpa using runScript_cfg hrun
  have hbuf : v.buf = s.buf ++ frameLiteral v.cfg t p ++ [] := by
    rw [runScript_feed_buf hrun hrs, List.append_nil, hcfg]
    rfl
  rw [← hcfg] at hc hp hnoise ⊢
  rcases le_or_gt (minLen v.cfg (kindOf v.cfg t)) p.length with hmin | hshort
  · refine ⟨_, acceptedFrameIsCapturedWhole.1 v s.buf p [] t _ hc hbuf hnoise ⟨hp, hmin, rfl⟩, fun _ => ?_,
      fun hshort => absurd hmin hshort.not_ge⟩
    exact ⟨rfl, rfl, _, rfl, rfl, rfl, lengthByte_toNat hc hp, rfl, (transmitOf_tx_last hc hp).symm, rfl⟩
  · exact ⟨_, decodeNext_of_short_frame hc hp hbuf hnoise rfl hshort, fun hmin => absurd hmin hshort.not_ge,
      fun _ => ⟨rfl, rfl⟩⟩

end Sys2Proof.Machine
end

section
/-! PROOFS. The statements of 60_exceptions.md: the rejection of a payload below its kind's minimum (R183), and the
causes of `INCOMPLETE` (R181). -/

namespace Sys2Proof.Machine

variable {c : Config} {view rest : Memory} {b t n : Byte}

/-! ## `SHORT_PAYLOAD` (R183) -/

/-- Where the other minimums are 0, only a `STATUS_REPORT` can have a payload below its kind's minimum. -/
theorem eq_statusReport_of_lt_minLen {k : Kind} {len : Nat} (hconnect : c.minConnect = 0) (htemp : c.minTemp = 0)
    (hack : c.minAck = 0) (hunknown : c.minUnknown = 0) (h : len < minLen c k) : k = .statusReport := by
  cases k with
  | statusReport => rfl
  | connect | tempReport | ack | unknown =>
    rw [minLen] at h
    omega

/-- `KIND` gives `STATUS_REPORT` for no type byte but `TYPE_STATUS` (R160). -/
theorem eq_typeStatus_of_kindOf (h : kindOf c t = .statusReport) : t = c.typeStatus := by
  by_contra ht
  rw [kindOf_eq, if_neg ht] at h
  split_ifs at h

/-- Settles O21: of the parser's tests only the one on the kind's minimum length fails, and where the other minimums
are 0 the kind is `STATUS_REPORT`. -/
theorem shortPayloadIsRejected : Obligations.ShortPayloadIsRejected := by
  intro s noise p rest t ck hc hbuf hnoise hp hck hshort
  refine ⟨decodeNext_of_short_frame hc hp hbuf hnoise hck hshort, fun hconnect htemp hack hunknown => ?_⟩
  exact eq_typeStatus_of_kindOf (eq_statusReport_of_lt_minLen hconnect htemp hack hunknown hshort)

/-! ## `INCOMPLETE` (R181) -/

/-- With the header there, the parser waits exactly for the rest of a frame of legal length (R126, R127). -/
theorem verdict_header_eq_incomplete_iff :
    verdict c (b :: t :: n :: rest) = .incomplete ↔ n.toNat ≤ c.maxLen ∧ rest.length < n.toNat + 1 := by
  refine ⟨fun h => ?_, fun ⟨hn, hbody⟩ => verdict_of_body_missing hn hbody⟩
  rw [verdict] at h
  split at h
  case isTrue => cases h
  case isFalse hn =>
    refine ⟨Nat.not_lt.1 hn, Nat.lt_succ_iff.2 (List.getElem?_eq_none_iff.1 ?_)⟩
    split at h
    case h_1 hnone => exact hnone
    case h_2 => split_ifs at h

/-- What a view at which the scan stopped lacks when the verdict on it is to wait: the header, or the body of a frame
of legal length (R181). -/
theorem verdict_eq_incomplete_iff (hview : view = [] ∨ ∃ m, view = c.start :: m) :
    verdict c view = .incomplete ↔
      view.length < 3 ∨
      ∃ t n rest, view = c.start :: t :: n :: rest ∧ n.toNat ≤ c.maxLen ∧ view.length < n.toNat + 4 := by
  constructor
  · intro h
    obtain rfl | ⟨m, rfl⟩ := hview
    · exact .inl (by simp)
    match m with
    | [] | [_] => exact .inl (by simp)
    | t :: n :: rest =>
      obtain ⟨hn, hbody⟩ := verdict_header_eq_incomplete_iff.1 h
      exact .inr ⟨t, n, rest, rfl, hn, by simp only [List.length_cons]; omega⟩
  · rintro (hshort | ⟨t, n, rest, rfl, hn, hbody⟩)
    · exact verdict_of_length_lt_three hshort
    · simp only [List.length_cons] at hbody
      exact verdict_of_body_missing hn (by omega)

/-- Settles O24: `INCOMPLETE` is the verdict on what the scan leaves, which is empty or begins with `START`. -/
theorem incompleteHasExactlyItsThreeCauses : Obligations.IncompleteHasExactlyItsThreeCauses := by
  intro s u h
  obtain ⟨-, -, -, hview⟩ := Memory.scan_spec s.cfg.start s.buf
  refine ⟨(decodeNext_res_eq_incomplete_iff h).trans (verdict_eq_incomplete_iff hview), fun hu => ?_⟩
  rw [decodeNext_incomplete h hu]
  exact ⟨rfl, rfl, rfl⟩

end Sys2Proof.Machine
end

section
/-! PROOFS. The statements of 10_state.md that rest on the invariant (R33): it holds after reset and after every step,
and the registers that hold values read as those values (R24, R26, R27). -/

namespace Sys2Proof.Machine

variable {c : Config} {s u : State} {view : Memory}

/-! ## What a verdict and an encoded frame guarantee -/

/-- What the invariant asks of a verdict: a rejection names its reason (R23), an accepted frame passes every test. -/
def Verdict.Sound (c : Config) : Verdict → Prop
  | .incomplete => True
  | .reject reason => reason ≠ .none
  | .accept f => f.Sound c

/-- Every rejection is for a reason of R81 other than `NONE`. -/
theorem verdict_reject_ne_none {reason : Reason} (h : verdict c view = .reject reason) : reason ≠ .none := by
  match view with
  | [] | [_] | [_, _] => cases h
  | b :: t :: n :: rest =>
    rw [verdict] at h
    split at h
    · cases h
      nofun
    split at h
    · cases h
    split_ifs at h <;> (cases h; nofun)

/-- An accepted frame is sound where the scan stopped at its start byte (R33 (c)). -/
theorem verdict_accept_sound {f : Capture} (hview : view = [] ∨ ∃ m, view = c.start :: m)
    (h : verdict c view = .accept f) : f.Sound c := by
  obtain ⟨rest, hrest, hmax, hck, hpay, hsum, hkind, hmin⟩ := verdict_accept_start h
  have hstart : f.fStart = c.start := by
    obtain rfl | ⟨m, rfl⟩ := hview
    · cases hrest
    · exact (List.cons.inj hrest).1.symm
  have hlen : f.fPay.length = f.fLen.toNat := by
    obtain ⟨hlt, -⟩ := List.getElem?_eq_some_iff.1 hck
    rw [hpay, List.length_take, Nat.min_eq_left hlt.le]
  exact ⟨hstart, hmax, hlen, hkind, hmin, hsum.symm⟩

theorem verdict_sound (hview : view = [] ∨ ∃ m, view = c.start :: m) : (verdict c view).Sound c := by
  cases h : verdict c view with
  | incomplete => trivial
  | reject reason => exact verdict_reject_ne_none h
  | accept f => exact verdict_accept_sound hview h

/-- What `ENCODE` writes is an encoded frame (R33 (d)). -/
theorem transmitOf_sound (hc : c.wf = true) (t : Byte) {p : List Byte} (hp : p.length ≤ c.maxLen) :
    (transmitOf c t p).Sound c := by
  have hlen : (transmitOf c t p).txLen.toNat = p.length + 4 := transmitOf_txLen_toNat hc hp
  have hsummed : (transmitOf c t p).tx.take (p.length + 3) = summedBytes c t p := by
    have : p.length + 3 = (summedBytes c t p).length := by simp [summedBytes]
    rw [this]
    exact List.take_left
  have hlast := transmitOf_tx_last (t := t) hc hp
  rw [hlen] at hlast
  rw [Transmit.Sound, hlen, Nat.add_sub_cancel, show p.length + 4 - 1 = p.length + 3 from rfl, hsummed]
  exact ⟨Nat.le_add_left .., Nat.add_le_add_right hp 4, frameBytes_length .., rfl,
    congrArg some (lengthByte_toNat hc hp), hlast⟩

/-! ## Each write keeps the invariant -/

/-- The end of `DECODE_NEXT`, from what R33 (a) to (c) ask of its results. -/
theorem State.Inv.withResult (hs : s.Inv) {buf : Memory} {res : Res} {reason : Reason} {f : Option Capture}
    (hroom : Memory.wf s.cfg.bufCap buf = true) (hreason : reason ≠ .none ↔ res = .invalid)
    (hcaptured : f.isSome = true ↔ res = .frame) (hframe : ∀ g, f = some g → g.Sound s.cfg) :
    (s.withResult buf res reason f).Inv where
  cfg := hs.cfg
  room := hroom
  reason := hreason
  captured := hcaptured
  frame := hframe
  encoded := hs.encoded
  sent := hs.sent
  idle := by rw [State.withResult, hs.idle, Scratch.empty]

theorem State.Inv.after (hs : s.Inv) {v : Verdict} (hroom : Memory.wf s.cfg.bufCap view = true)
    (hv : v.Sound s.cfg) : (s.after view v).Inv := by
  cases v with
  | incomplete => exact hs.withResult hroom (by simp) (by simp) nofun
  | reject reason =>
    exact hs.withResult (Memory.wf_advance hroom 1) (iff_of_true hv rfl) (by simp) nofun
  | accept f =>
    refine hs.withResult (Memory.wf_advance hroom _) (by simp) (by simp) fun g hg => ?_
    cases hg
    exact hv

/-- The end of `ENCODE`, from what R33 (d) asks of its results. -/
theorem State.Inv.encodedWith (hs : s.Inv) {res : TxRes} {f : Option Transmit}
    (hencoded : f.isSome = true ↔ res = .ok) (hsent : ∀ g, f = some g → g.Sound s.cfg) :
    (s.endEncode.encoded res f).Inv :=
  ⟨hs.cfg, hs.room, hs.reason, hs.captured, hs.frame, hencoded, hsent, by simp [hs.idle, Scratch.empty]⟩

/-- `ERR_LEN` leaves the scratch register of the encoder as it found it, which is without value. -/
theorem State.Inv.endEncode_eq (hs : s.Inv) : s.endEncode = s := by
  have htacc : s.scratch.tacc = none := by rw [hs.idle]; rfl
  rw [State.endEncode, ← htacc]

theorem State.Inv.respond (hs : s.Inv) (r : Response) : (s.respond r).Inv :=
  ⟨hs.cfg, hs.room, hs.reason, hs.captured, hs.frame, hs.encoded, hs.sent, hs.idle⟩

theorem State.Inv.setOvf (hs : s.Inv) : s.setOvf.Inv :=
  ⟨hs.cfg, hs.room, hs.reason, hs.captured, hs.frame, hs.encoded, hs.sent, hs.idle⟩

theorem State.Inv.withPort (hs : s.Inv) (port : List (List Transaction)) : ({ s with port := port } : State).Inv :=
  ⟨hs.cfg, hs.room, hs.reason, hs.captured, hs.frame, hs.encoded, hs.sent, hs.idle⟩

theorem State.Inv.withBuf (hs : s.Inv) {buf : Memory} (hroom : Memory.wf s.cfg.bufCap buf = true) :
    ({ s with buf := buf } : State).Inv :=
  ⟨hs.cfg, hroom, hs.reason, hs.captured, hs.frame, hs.encoded, hs.sent, hs.idle⟩

theorem State.resetWith_inv (hc : c.wf = true) : (State.resetWith c).Inv where
  cfg := hc
  room := Memory.wf_nil c.bufCap
  reason := by simp
  captured := by simp
  frame := nofun
  encoded := by simp
  sent := nofun
  idle := rfl

/-! ## The invariant (R33) -/

/-- A frame row keeps the invariant: its bytes begin with the configuration's start byte. -/
theorem runFrame_keeps_inv {t ck : Byte} {p : List Byte} (hs : s.Inv) (h : runFrame t p ck s = .next u) : u.Inv := by
  rw [runFrame_after] at h
  cases h
  exact hs.after hs.room (verdict_sound (.inr ⟨_, rfl⟩))

/-- Every instruction, the frame rows among them, keeps the invariant. -/
theorem exec_keeps_inv {i : Instr} (hs : s.Inv) (h : exec i s = .next u) : u.Inv := by
  cases i with
  | nop =>
    cases h
    exact hs.respond .done
  | reset =>
    cases h
    exact ((State.resetWith_inv hs.cfg).withPort s.port).respond .done
  | push b =>
    obtain ⟨hroom, rfl⟩ | ⟨-, rfl⟩ := push_next_cases h
    · exact (hs.withBuf (Memory.wf_append hroom b)).respond .pushed
    · exact hs.setOvf.respond .dropped
  | decodeNext =>
    rw [decodeNext_next h]
    obtain ⟨-, -, -, hview⟩ := Memory.scan_spec s.cfg.start s.buf
    exact hs.after (Memory.wf_scan hs.room _) (verdict_sound hview)
  | encode t p =>
    rcases le_or_gt p.length s.cfg.maxLen with hp | hp
    · rw [encode_next hp h]
      refine hs.encodedWith (by simp) fun f hf => ?_
      cases hf
      exact transmitOf_sound hs.cfg t hp
    · rw [exec_encode_long t hp] at h
      cases h
      rw [← hs.endEncode_eq]
      exact hs.encodedWith (by simp) nofun
  | connect | tempReport | statusReport | ack | unknown => exact runFrame_keeps_inv hs h

/-- The sample configuration is well-formed: its fold is the identity (D23). -/
theorem refcfg_wf : Config.refcfg.wf = true := by
  have hfold : Config.refcfg.fold = id := funext (Config.fold_foldTable _ _ rfl)
  exact (Config.wf_iff _).2 ⟨hfold ▸ Function.bijective_id, by decide, by decide, by decide, by decide⟩

/-- Settles O42: nothing holds a value after reset that R33 constrains, and `REFCFG` is well-formed. -/
theorem invariantHoldsAfterReset : Obligations.InvariantHoldsAfterReset :=
  ⟨fun _ => State.resetWith_inv, State.resetWith_inv refcfg_wf⟩

/-- Settles O43: a step moves the port on and runs at most one instruction, each of which keeps the invariant, leaves
`CFG` alone, and, `RESET` apart, does not clear `OVF`. -/
theorem everyStepKeepsTheInvariant : Obligations.EveryStepKeepsTheInvariant := by
  intro s u hs h
  have htaken : s.taken.Inv := hs.withPort s.port.tail
  obtain ⟨-, ⟨-, rfl⟩ | ⟨i, hi, hexec⟩⟩ := step_next_cases h
  · exact ⟨htaken, rfl, fun hovf _ => hovf⟩
  · refine ⟨exec_keeps_inv htaken hexec, exec_cfg (s := s.taken) hexec, fun hovf hreset => ?_⟩
    have hne : i ≠ .reset := by
      rintro rfl
      exact hreset hi
    rw [exec_ovf hexec, ovfAfter_eq_true_iff]
    exact ⟨hne, .inl hovf⟩

/-! ## Reads of the registers that hold values (R24, R26, R27) -/

/-- `COUNT` fits the width of its output (R26). -/
theorem State.countBits_toNat (h : s.buf.length ≤ s.cfg.bufCap) : s.countBits.toNat = s.buf.length := by
  have hwidth : s.cfg.bufCap + 1 ≤ 2 ^ countWidth s.cfg := Nat.le_pow_clog Nat.one_lt_two _
  exact (BitVec.toNat_ofNat ..).trans (Nat.mod_eq_of_lt ((Nat.lt_succ_of_le h).trans_le hwidth))

/-- Settles O48: under the invariant each of these registers holds the value named, and the host's read answers it. -/
theorem registersWithValuesAreReadable : Obligations.RegistersWithValuesAreReadable := by
  intro s hs
  have hread {r : Reg} {v : Nat} (h : s.regValue r = some v) : s.hostRead r = .ok v :=
    State.hostRead_value hs.cfg h
  refine ⟨hread rfl, State.countBits_toNat ((Memory.wf_iff _ _).1 hs.room), hread rfl, hread rfl, hread rfl, hread rfl,
    ?capture, ?transmit⟩
  case capture =>
    intro hres
    obtain ⟨f, hf⟩ := Option.isSome_iff_exists.1 (hs.captured.2 hres)
    obtain ⟨hstart, -, hlen, hkind, -, -⟩ := hs.frame f hf
    refine ⟨f, hf, hread ?_, hread ?_, hread ?_, hread ?_, hread ?_, fun i hi => hread ?_⟩
    case refine_6 => simp [State.regValue, hf, hi]
    all_goals simp [State.regValue, hf, hstart, hlen, hkind]
  case transmit =>
    intro hres
    obtain ⟨f, hf⟩ := Option.isSome_iff_exists.1 (hs.encoded.2 hres)
    obtain ⟨-, -, hlen, -⟩ := hs.sent f hf
    refine ⟨f, hf, hread ?_, fun i hi => hread ?_⟩
    · simp [State.regValue, hf, hlen]
    · simp [State.regValue, hf, hi]

end Sys2Proof.Machine
end

section
/-! PROOFS. The statements of 30_encoding.md on encodings: decoding and encoding undo each other (R70 to R86), a frame's
fields stand at their offsets (R71), and words of the opcode table. -/

namespace Sys2Proof.Machine

variable {c : Config} {i : Instr} {bytes rest : List Byte}

/-- Settles O50: constructor by constructor, the frame rows by the kind of their type byte. -/
theorem decodeOfEncodeIsTheInstruction : Obligations.DecodeOfEncodeIsTheInstruction := by
  intro c i hc hi
  cases i with
  | nop => exact Laws.DecodeEncode.nop c hc hi
  | reset => exact Laws.DecodeEncode.reset c hc hi
  | push b => exact Laws.DecodeEncode.push b c hc hi
  | decodeNext => exact Laws.DecodeEncode.decodeNext c hc hi
  | encode t p => exact Laws.DecodeEncode.encode t p c hc hi
  | connect p ck => exact Laws.DecodeEncode.connect p ck c hc hi
  | tempReport p ck => exact Laws.DecodeEncode.tempReport p ck c hc hi
  | statusReport p ck => exact Laws.DecodeEncode.statusReport p ck c hc hi
  | ack p ck => exact Laws.DecodeEncode.ack p ck c hc hi
  | unknown t p ck => exact Laws.DecodeEncode.unknown t p ck c hc hi

/-! ## The row of a frame -/

/-- The fields of the row that a frame's type byte selects are the frame's own (R79, R160). -/
theorem frameFields_frameInstr (c : Config) (t : Byte) (p : List Byte) (ck : Byte) :
    frameFields c (frameInstr c t p ck) = some (kindOf c t, t, p, ck) := by
  rw [frameInstr, kindOf_eq]
  split_ifs with hconnect htemp hstatus hack
  · rw [hconnect, frameFields]
  · rw [htemp, frameFields]
  · rw [hstatus, frameFields]
  · rw [hack, frameFields]
  · rfl

/-- The row that a frame's type byte selects has an encoding exactly when the payload's length has one (R74). -/
theorem frameInstr_wf_iff (c : Config) (t : Byte) (p : List Byte) (ck : Byte) :
    (frameInstr c t p ck).wf c = true ↔ p.length ≤ c.maxLen := by
  rw [frameInstr, kindOf_eq]
  split_ifs with hconnect htemp hstatus hack
  iterate 4 exact decide_eq_true_iff
  simp [Instr.wf, hconnect, htemp, hstatus, hack]

/-- A frame row is encoded as the bytes of its fields (R71). -/
theorem encode_of_frameFields {k : Kind} {t ck : Byte} {p : List Byte} (h : frameFields c i = some (k, t, p, ck)) :
    encode c i = .frame (frameBytes c t p ck) := by
  cases i with
  | nop | reset | push | decodeNext | encode => cases h
  | connect | tempReport | statusReport | ack | unknown =>
    cases h
    rfl

/-! ## What the decoders answer -/

/-- What the frame decoder reads is a frame of legal length at the beginning of the bytes (R71, R77). -/
theorem decodeFrame_ok (h : decodeFrame c bytes = .ok (i, rest)) :
    ∃ t p ck, p.length ≤ c.maxLen ∧ i = frameInstr c t p ck ∧ bytes = frameBytes c t p ck ++ rest := by
  match bytes with
  | [] => cases h
  | [_] | [_, _] =>
    simp only [decodeFrame] at h
    split at h <;> cases h
  | b :: t :: n :: body =>
    simp only [decodeFrame] at h
    split_ifs at h with hstart hmax
    split at h <;> cases h
    next ck hbody =>
    have hlt : n.toNat < body.length := by
      by_contra hle
      rw [List.drop_eq_nil_of_le (Nat.not_lt.1 hle)] at hbody
      cases hbody
    have hlen : (body.take n.toNat).length = n.toNat := List.length_take_of_le hlt.le
    refine ⟨t, body.take n.toNat, ck, hlen.trans_le (Nat.not_lt.1 hmax), rfl, ?_⟩
    rw [frameBytes, hlen, BitVec.ofNat_toNat, BitVec.setWidth_eq, ← not_not.1 hstart]
    conv_lhs => rw [← List.take_append_drop n.toNat body, hbody]
    simp

/-- What the command decoder reads is encoded as the transaction it was read from (R84, R86). -/
theorem decodeCommand_ok {tr : Transaction} (h : decodeCommand tr = .ok i) :
    i.wf c = true ∧ encode c i = .command tr := by
  obtain ⟨code, operands⟩ := tr
  have hof : BitVec.ofNat 3 code.toNat = code := by simp
  rw [decodeCommand] at h
  split at h <;> cases h
  all_goals
    next hcode hoperands =>
    rw [hcode] at hof
    subst hof hoperands
    exact ⟨rfl, rfl⟩

/-- Settles O51: a command by its code and operands; a frame by its bytes, which are those of the row its type byte
selects. -/
theorem encodeOfDecodeIsTheEncoding : Obligations.EncodeOfDecodeIsTheEncoding := by
  intro c e i h
  cases e with
  | command tr =>
    rw [decode] at h
    split at h <;> cases h
    next hdecode => exact decodeCommand_ok hdecode
  | frame bytes =>
    rw [decode] at h
    split at h <;> cases h
    next hdecode =>
    obtain ⟨t, p, ck, hp, rfl, rfl⟩ := decodeFrame_ok hdecode
    rw [List.append_nil]
    exact ⟨(frameInstr_wf_iff c t p ck).2 hp, encode_of_frameFields (frameFields_frameInstr c t p ck)⟩

/-! ## Offsets and table words -/

/-- Settles O52: header, payload and checksum byte one after another, the length byte holding the payload's length. -/
theorem frameFieldsStandAtTheirOffsets : Obligations.FrameFieldsStandAtTheirOffsets := by
  intro c t ck p hc hp
  refine ⟨frameBytes_length c t p ck, rfl, rfl, congrArg some (lengthByte_toNat hc hp), fun i hi => ?payload, ?last⟩
  case payload =>
    rw [frameBytes, List.append_assoc, List.getElem?_append_right (Nat.le_add_right 3 i), List.getElem?_append_left]
    · simp
    · simpa using hi
  case last =>
    have hlen : p.length + 3 = (summedBytes c t p).length := by simp [summedBytes]
    rw [hlen]
    exact List.getElem?_concat_length

/-- Settles O53: closed words, the frame rows dispatched on the type bytes of `REFCFG`. -/
theorem tableWordsDecodeToTheirRows : Obligations.TableWordsDecodeToTheirRows :=
  ⟨rfl, rfl, rfl, rfl, rfl, rfl, rfl, rfl, rfl, rfl, rfl, rfl⟩

end Sys2Proof.Machine
end

section
/-! PROOFS. The statements on frame rows (41_parser.md R124 to R131): what a row answers on its own bytes, and that
`DECODE_NEXT` is the row at the cursor. -/

namespace Sys2Proof.Machine

variable {c : Config} {s : State} {i : Instr} {k : Kind} {t ck : Byte} {p : List Byte} {view : Memory}

/-! ## Frame rows -/

/-- A frame row ends in the state of the verdict on the bytes of its fields. -/
theorem exec_frame_after (h : frameFields s.cfg i = some (k, t, p, ck)) :
    exec i s = .next (s.after s.buf (verdict s.cfg (frameBytes s.cfg t p ck))) := by
  rw [exec_frame h, runFrame_after]

/-- The verdict on exactly the bytes of a frame of legal length. -/
theorem verdict_frameBytes (hc : c.wf = true) (hp : p.length ≤ c.maxLen) :
    verdict c (frameBytes c t p ck) =
      if checksum c (summedBytes c t p) ≠ ck then .reject .badChecksum
      else if p.length < minLen c (kindOf c t) then .reject .shortPayload
      else .accept (captureOf c (kindOf c t) t p ck) := by
  simpa using verdict_frame hc t p ck [] hp

/-- A row whose frame passes every test is captured under its kind and consumed whole (R130). -/
theorem exec_frame_accepted (hc : s.cfg.wf = true) (h : frameFields s.cfg i = some (k, t, p, ck))
    (hk : kindOf s.cfg t = k) (hframe : Acceptable s.cfg k t p ck) :
    exec i s = .next (s.withResult (s.buf.drop (p.length + 4)) .frame .none (some (captureOf s.cfg k t p ck))) := by
  subst hk
  obtain ⟨hp, hmin, hck⟩ := hframe
  rw [exec_frame_after h, verdict_frameBytes hc hp, if_neg (not_not.2 hck.symm), if_neg (Nat.not_lt.2 hmin),
    State.after, captureOf, lengthByte_toNat hc hp]

/-- Settles O35: each row's fields carry its kind, which is `KIND` of its type byte. -/
theorem acceptableFrameRowsAreAccepted : Obligations.AcceptableFrameRowsAreAccepted := by
  intro s p ck hc
  exact ⟨exec_frame_accepted hc rfl (kindOf_connect _), exec_frame_accepted hc rfl (kindOf_temp hc),
    exec_frame_accepted hc rfl (kindOf_status hc), exec_frame_accepted hc rfl (kindOf_ack hc),
    fun t ht => exec_frame_accepted hc rfl (kindOf_other ht)⟩

/-- Settles O36: the checksum test comes before the minimum-length test, and a rejection costs one byte (R131). -/
theorem illegalFrameRowsAreRejected : Obligations.IllegalFrameRowsAreRejected := by
  intro s i k t ck p hc hi h
  obtain ⟨rfl, hp⟩ := frameFields_kind hc hi h
  rw [exec_frame_after h, verdict_frameBytes hc hp]
  refine ⟨fun hck => ?wrong, fun hck hshort => ?short⟩
  case wrong =>
    rw [if_pos hck.symm]
    rfl
  case short =>
    rw [if_neg (not_not.2 hck.symm), if_pos hshort]
    rfl

/-! ## The frame at the cursor -/

/-- The bytes of a frame are decided, whatever its fields: none is missing. -/
theorem verdict_frameBytes_ne_incomplete (c : Config) (t : Byte) (p : List Byte) (ck : Byte) :
    verdict c (frameBytes c t p ck) ≠ .incomplete := by
  intro h
  have hshort : (p ++ [ck]).length < (BitVec.ofNat 8 p.length : Byte).toNat + 1 :=
    (verdict_header_eq_incomplete_iff.1 h).2
  have hmod : (BitVec.ofNat 8 p.length : Byte).toNat ≤ p.length := by
    rw [BitVec.toNat_ofNat]
    exact Nat.mod_le ..
  rw [List.length_append, List.length_singleton] at hshort
  omega

/-- Where the frame decoder reads no frame at the cursor, the parser rejects an overlong length and waits otherwise. -/
theorem verdict_of_decodeFrame_error {e : FrameError} (hview : view = [] ∨ ∃ m, view = c.start :: m)
    (h : decodeFrame c view = .error e) :
    verdict c view = if e = .lengthRange then .reject .lenRange else .incomplete := by
  obtain rfl | ⟨m, rfl⟩ := hview
  · cases h
    rfl
  match m with
  | [] | [_] =>
    simp only [decodeFrame, ne_eq, not_true_eq_false, if_false] at h
    cases h
    rfl
  | t :: n :: rest =>
    simp only [decodeFrame, ne_eq, not_true_eq_false, if_false] at h
    split_ifs at h with hmax
    · cases h
      exact verdict_of_maxLen_lt hmax
    · split at h <;> cases h
      next hbody =>
      exact verdict_of_body_missing (Nat.not_lt.1 hmax) (Nat.lt_succ_of_le (List.drop_eq_nil_iff.1 hbody))

/-- Settles O37: the frame decoder and the parser read the same frame, whose verdict does not depend on what follows
it, and they miss the same parts. -/
theorem decodeNextRunsTheFrameAtTheCursor : Obligations.DecodeNextRunsTheFrameAtTheCursor := by
  intro s
  rw [decodeNext_after]
  obtain ⟨-, -, -, hview⟩ := Memory.scan_spec s.cfg.start s.buf
  cases h : decodeFrame s.cfg (Memory.scan s.cfg.start s.buf) with
  | ok r =>
    obtain ⟨t, p, ck, -, hrow, hbytes⟩ := decodeFrame_ok h
    have hverdict : verdict s.cfg (Memory.scan s.cfg.start s.buf) = verdict s.cfg (frameBytes s.cfg t p ck) := by
      rw [hbytes, verdict_append (verdict_frameBytes_ne_incomplete s.cfg t p ck)]
    dsimp only
    rw [hrow, hverdict, exec_frame_after (s := { s with buf := Memory.scan s.cfg.start s.buf })
      (frameFields_frameInstr s.cfg t p ck)]
    cases verdict s.cfg (frameBytes s.cfg t p ck) <;> rfl
  | error e =>
    rw [verdict_of_decodeFrame_error hview h]
    cases e <;> rfl

end Sys2Proof.Machine
end

section
/-! PROOFS. The statements of 10_state.md and 40_commands.md on what every command does and leaves alone: totality
(R100), the access matrix (R35), the scratch registers (R28), and the two sides that share no state (R27). -/

namespace Sys2Proof.Machine

variable {s u : State} {i : Instr}

/-! ## Totality (R100) -/

theorem State.after_response (s : State) (view : Memory) (v : Verdict) :
    (s.after view v).response = some v.response := by
  cases v <;> rfl

/-- Settles O38: instruction by instruction, the parser ending in the state of its verdict. -/
theorem everyCommandEndsInANextState : Obligations.EveryCommandEndsInANextState := by
  intro i s
  cases i with
  | nop => exact ⟨_, .done, exec_nop s, rfl⟩
  | reset => exact ⟨_, .done, exec_reset s, rfl⟩
  | push b =>
    by_cases hroom : s.buf.length < s.cfg.bufCap
    · exact ⟨_, .pushed, exec_push_room b hroom, rfl⟩
    · exact ⟨_, .dropped, exec_push_full b hroom, rfl⟩
  | decodeNext => exact ⟨_, _, decodeNext_after s, State.after_response ..⟩
  | encode t p =>
    rcases le_or_gt p.length s.cfg.maxLen with hp | hp
    · exact ⟨_, _, exec_encode_ok t hp, rfl⟩
    · exact ⟨_, _, exec_encode_long t hp, rfl⟩
  | connect p ck | tempReport p ck | statusReport p ck | ack p ck | unknown t p ck =>
    exact ⟨_, _, runFrame_after _ p ck s, State.after_response ..⟩

/-! ## What each command may change (R35) -/

/-- The end of a reception changes `buf`, `RES`, `REASON`, the capture registers, the parser's scratch registers and the
response, and nothing else. -/
theorem State.after_frame (s : State) (view : Memory) (v : Verdict) :
    s.after view v = { s with
      buf := (s.after view v).buf, res := (s.after view v).res, reason := (s.after view v).reason
      capture := (s.after view v).capture
      scratch := { (s.after view v).scratch with tacc := s.scratch.tacc }
      response := (s.after view v).response } := by
  cases v <;> rfl

/-- A frame row has ended in the state of its verdict on `buf`. -/
theorem frameRow_next (hi : (frameFields s.cfg i).isSome = true) (h : exec i s = .next u) :
    ∃ v, u = s.after s.buf v := by
  obtain ⟨⟨k, t, p, ck⟩, hfields⟩ := Option.isSome_iff_exists.1 hi
  rw [exec_frame_after hfields] at h
  cases h
  exact ⟨_, rfl⟩

/-- `DECODE_NEXT` and the frame rows have ended in the state of a verdict. -/
theorem reception_next (hi : i = .decodeNext ∨ (frameFields s.cfg i).isSome = true) (h : exec i s = .next u) :
    ∃ view v, u = s.after view v := by
  obtain rfl | hi := hi
  · exact ⟨_, _, decodeNext_next h⟩
  · exact ⟨_, frameRow_next hi h⟩

/-- What `DECODE_NEXT` leaves in `buf` is what stands behind the bytes its scan and its result take (R22). -/
theorem decodeNext_buf_eq_drop (h : exec .decodeNext s = .next u) :
    u.buf = s.buf.drop (Memory.scanned s.cfg.start s.buf + u.endAdvance) := by
  rw [decodeNext_next h, State.after_buf, ← List.drop_drop, Memory.drop_scanned]

/-- Reading behind dropped bytes. -/
theorem read_of_buf_eq_drop {n : Nat} (h : u.buf = s.buf.drop n) (a : Nat) : u.buf.read a = s.buf.read (a + n) := by
  rw [h, Nat.add_comm]
  exact Memory.read_advance s.buf n a

/-- Settles O40: the end each command has reached says what it has written; the bytes of `buf` that stay are appended
to or dropped from. -/
theorem commandsTouchOnlyTheirOwnState : Obligations.CommandsTouchOnlyTheirOwnState := by
  intro s u
  refine ⟨?nop, ?reset, ?push, ?reception, ?decodeNext, ?frameRow, ?encode⟩
  case nop =>
    intro h
    cases h
    rfl
  case reset =>
    intro h
    cases h
    exact ⟨rfl, rfl⟩
  case push =>
    intro b h
    obtain ⟨-, rfl⟩ | ⟨-, rfl⟩ := push_next_cases h
    · exact ⟨rfl, id, fun a => Memory.read_append_of_ne s.buf b⟩
    · exact ⟨rfl, fun _ => rfl, fun _ _ => rfl⟩
  case reception =>
    intro i hi h
    obtain ⟨view, v, rfl⟩ := reception_next hi h
    exact State.after_frame s view v
  case decodeNext => exact fun h => read_of_buf_eq_drop (decodeNext_buf_eq_drop h)
  case frameRow =>
    intro i hi h
    obtain ⟨v, rfl⟩ := frameRow_next hi h
    exact read_of_buf_eq_drop (State.after_buf s s.buf v)
  case encode =>
    intro t p h
    obtain ⟨-, f, rfl⟩ | ⟨-, rfl⟩ := encode_next_cases h <;> rfl

/-! ## The scratch registers (R28) -/

/-- The end of a reception from another content of the scratch registers. -/
theorem State.after_with_scratch (s : State) (x : Scratch) (view : Memory) (v : Verdict) :
    State.after { s with scratch := x } view v = { s.after view v with scratch := x.endDecode } := by
  cases v <;> rfl

/-- What `i` leaves in the scratch registers, `x` being their content before it: a command that uses its own empties
them at its end, and `RESET` empties all. -/
def scratchAfter (i : Instr) (s : State) (x : Scratch) : Scratch :=
  match i with
  | .nop | .push _ => x
  | .reset => Scratch.empty
  | .encode _ p => if s.cfg.maxLen < p.length then x else { x with tacc := none }
  | .decodeNext | .connect _ _ | .tempReport _ _ | .statusReport _ _ | .ack _ _ | .unknown _ _ _ => x.endDecode

/-- From another content of the scratch registers a command ends in the same state but for them. -/
theorem exec_with_scratch (h : exec i s = .next u) (x : Scratch) :
    exec i { s with scratch := x } = .next { u with scratch := scratchAfter i s x } := by
  cases i with
  | nop | reset =>
    cases h
    rfl
  | push b =>
    obtain ⟨hroom, rfl⟩ | ⟨hfull, rfl⟩ := push_next_cases h
    · exact exec_push_room (s := { s with scratch := x }) b hroom
    · exact exec_push_full (s := { s with scratch := x }) b hfull
  | decodeNext =>
    rw [decodeNext_next h, decodeNext_after, State.after_with_scratch]
    rfl
  | encode t p =>
    rcases le_or_gt p.length s.cfg.maxLen with hp | hp
    · rw [encode_next hp h, scratchAfter, if_neg (Nat.not_lt.2 hp)]
      exact exec_encode_transmitOf (s := { s with scratch := x }) t hp
    · rw [exec_encode_long t hp] at h
      cases h
      rw [scratchAfter, if_pos hp]
      exact exec_encode_long (s := { s with scratch := x }) t hp
  | connect p ck | tempReport p ck | statusReport p ck | ack p ck | unknown t p ck =>
    cases (runFrame_after _ p ck s).symm.trans h
    exact (runFrame_after _ p ck { s with scratch := x }).trans (congrArg _ (State.after_with_scratch ..))

/-- Settles O41: what a command leaves in the scratch registers is `scratchAfter` of what it found there, and the rest
of its effect is the same whatever it found. -/
theorem scratchRegistersCarryNothingOver : Obligations.ScratchRegistersCarryNothingOver := by
  intro i s u x h
  exact ⟨_, exec_with_scratch h x⟩

/-! ## `ENCODE` and the receive side (R27) -/

/-- What `ENCODE` leaves in the transmit registers and answers comes from `CFG` and its operands alone. -/
theorem encode_results {t : Byte} {p : List Byte} {s' u' : State} (hcfg : s'.cfg = s.cfg)
    (hu : exec (.encode t p) s = .next u) (hu' : exec (.encode t p) s' = .next u') :
    u.txRes = u'.txRes ∧ u.transmit = u'.transmit ∧ u.response = u'.response := by
  rcases le_or_gt p.length s.cfg.maxLen with hp | hp
  · rw [encode_next hp hu, encode_next (hcfg ▸ hp) hu', hcfg]
    exact ⟨rfl, rfl, rfl⟩
  · rw [exec_encode_long t hp] at hu
    rw [exec_encode_long t (hcfg ▸ hp)] at hu'
    cases hu
    cases hu'
    exact ⟨rfl, rfl, rfl⟩

/-- Settles O8: both ends of `ENCODE` are written from `CFG` and the operands, and neither `PUSH` nor a verdict writes
the transmit registers. -/
theorem encodeAndReceptionShareNoState : Obligations.EncodeAndReceptionShareNoState := by
  refine ⟨?encode, ?reception⟩
  case encode =>
    intro s s' u u' t p hcfg hu hu'
    obtain ⟨htxRes, htransmit, hresponse⟩ := encode_results hcfg hu hu'
    refine ⟨htxRes, htransmit, hresponse, ?_⟩
    obtain ⟨-, f, rfl⟩ | ⟨-, rfl⟩ := encode_next_cases hu <;> exact ⟨rfl, rfl, rfl, rfl, rfl⟩
  case reception =>
    rintro s u i (rfl | ⟨b, rfl⟩) h
    · rw [decodeNext_next h, State.after_frame]
      exact ⟨rfl, rfl⟩
    · obtain ⟨-, rfl⟩ | ⟨-, rfl⟩ := push_next_cases h <;> exact ⟨rfl, rfl⟩

end Sys2Proof.Machine
end

section
/-! PROOFS. The statements on steps (40_commands.md R100, 30_encoding.md R84, 20_memory.md R57, 00_scope.md R6, R10,
R11). -/

namespace Sys2Proof.Machine

variable {s : State} {slot : List Transaction} {later : List (List Transaction)}

/-! ## What stands at the port -/

theorem State.taken_of_port (h : s.port = slot :: later) : s.taken = { s with port := later } := by
  rw [State.taken, h, List.tail_cons]

theorem State.nowPresented_of_port (h : s.port = slot :: later) : s.nowPresented = presented slot := by
  rw [State.nowPresented, h]

theorem presented_ok {tr : Transaction} {i : Instr} (h : decodeCommand tr = .ok i) : presented [tr] = .command i := by
  simp [presented, h]

theorem presented_error {tr : Transaction} {e : CommandError} (h : decodeCommand tr = .error e) :
    presented [tr] = .noMeaning (refusalOf e) := by
  simp [presented, h]

/-- The codes 5, 6 and 7 are reserved, whatever operands stand with them (R84). -/
theorem decodeCommand_reserved {code : BitVec 3} (h : 5 ≤ code.toNat) (operands : List Byte) :
    decodeCommand ⟨code, operands⟩ = .error (.reservedCode code) := by
  have hlt := code.isLt
  obtain hcode | hcode | hcode : code.toNat = 5 ∨ code.toNat = 6 ∨ code.toNat = 7 := by omega
  all_goals simp [decodeCommand, hcode]

/-! ## What a step does with it -/

/-- Nothing presented: only the instant passes (R11). -/
theorem step_idle (hc : s.cfg.wf = true) (h : s.nowPresented = .idle) : step s = .next s.taken := by
  simp [step, hc, h]

/-- Something without a meaning presented: refused (R10). -/
theorem step_noMeaning {r : Refusal} (hc : s.cfg.wf = true) (h : s.nowPresented = .noMeaning r) :
    step s = .refused r := by
  simp [step, hc, h]

/-- An ill-formed `CFG`: refused, whatever is presented (R6, R10). -/
theorem step_illFormed (hc : s.cfg.wf = false) : step s = .refused .illFormedConfig := by
  simp [step, hc]

/-- Settles O44: the slot is taken from the port and decodes to the one command that runs. -/
theorem stepRunsThePresentedCommand : Obligations.StepRunsThePresentedCommand := by
  intro s tr later i hc hport hdecode
  rw [step_command hc ((State.nowPresented_of_port hport).trans (presented_ok hdecode)), State.taken_of_port hport]

/-- Settles O45: the five codes with the operands of R86 decode to their commands, the reserved codes to none. -/
theorem commandCodesRunTheirCommands : Obligations.CommandCodesRunTheirCommands := by
  intro s later t b p code operands hc
  have hrun {tr : Transaction} {i : Instr} (hdecode : decodeCommand tr = .ok i) (hport : s.port = [tr] :: later) :
      step s = exec i { s with port := later } :=
    stepRunsThePresentedCommand s tr later i hc hport hdecode
  refine ⟨hrun rfl, hrun rfl, hrun rfl, hrun rfl, hrun rfl, fun hport hcode => step_noMeaning hc ?_⟩
  exact (State.nowPresented_of_port hport).trans (presented_error (decodeCommand_reserved hcode operands))

/-- Settles O46: the port's shape and the check of `CFG` decide; with nothing at the port its tail is the port. -/
theorem situationsWithoutACommand : Obligations.SituationsWithoutACommand := by
  intro s
  refine ⟨?simultaneous, ?illFormed, ?nothing, ?emptySlot⟩
  case simultaneous =>
    intro t1 t2 more later hc hport
    exact step_noMeaning hc (State.nowPresented_of_port hport)
  case illFormed =>
    intro hc
    rw [← s.cfg.wf_iff, Bool.not_eq_true] at hc
    exact ⟨step_illFormed hc, State.hostRead_illFormed hc⟩
  case nothing =>
    intro hc hport
    have htaken : s.taken = s := by rw [State.taken, hport, List.tail_nil, ← hport]
    rw [step_idle hc (by rw [State.nowPresented, hport]), htaken]
  case emptySlot =>
    intro later hc hport
    rw [step_idle hc (State.nowPresented_of_port hport), State.taken_of_port hport]

end Sys2Proof.Machine
end

section
/-! PROOFS. The statement of 42_checksum.md section 3: what the checksum test lets pass (R149). -/

namespace Sys2Proof.Machine

variable {s : List Byte} {i j : Nat}

/-- A byte changed by `d` changes the sum by `d`. -/
theorem sum8_set_add (hi : i < s.length) (d : Byte) : sum8 (s.set i (s[i] + d)) = sum8 s + d := by
  rw [sum8_eq_sum, sum8_eq_sum, List.sum_set', dif_pos hi, neg_add_cancel_left]

/-- One byte changed by `+d` and another by `-d` leave the sum alone. -/
theorem sum8_set_add_set_sub (hi : i < s.length) (hj : j < s.length) (hij : i ≠ j) (d : Byte) :
    sum8 ((s.set i (s[i] + d)).set j (s[j] - d)) = sum8 s := by
  have hj' : j < (s.set i (s[i] + d)).length := by rwa [List.length_set]
  have hsame : s[j] = (s.set i (s[i] + d))[j] := (List.getElem_set_ne hij hj').symm
  rw [hsame, sub_eq_add_neg, sum8_set_add hj', sum8_set_add hi, add_neg_cancel_right]

/-- Settles O13: what passes is what has the same sum, and a permutation has it, as have two changes that cancel. -/
theorem whatTheChecksumDoesNotDetect : Obligations.WhatTheChecksumDoesNotDetect := by
  intro c s hc
  exact ⟨fun _ => valid_checksum_iff hc, fun _ hperm => (valid_checksum_iff hc).2 (sum8_perm hperm).symm,
    fun _ _ d hi hj hij => (valid_checksum_iff hc).2 (sum8_set_add_set_sub hi hj hij d)⟩

end Sys2Proof.Machine
end

section
/-! PROOFS. The statement of 10_state.md section 12: the ring realisation holds the byte sequence (R36). -/

namespace Sys2Proof.Machine

variable {cap : Nat} {r : Ring} {start : Byte}

/-- Different offsets within the capacity have different slots. -/
theorem Ring.slot_ne (r : Ring) {i j : Nat} (hi : i < j) (hj : j < cap) : r.slot cap i ≠ r.slot cap j := fun h =>
  hi.ne ((Nat.ModEq.add_left_cancel' r.rp h).eq_of_lt_of_lt (hi.trans hj) hj)

/-- After an advance by `n` the slot of an offset is the one of the offset `n` further on. -/
theorem Ring.slot_advance (cap n i : Nat) (r : Ring) : (r.advance cap n).slot cap i = r.slot cap (n + i) := by
  rw [Ring.slot, Ring.advance, Nat.mod_add_mod, Nat.add_assoc, Ring.slot]

/-! ## `PUSH` -/

theorem Ring.push_wf (hr : r.wf cap = true) (b : Byte) : (r.push cap b).wf cap = true := by
  obtain ⟨hmem, hrp, hcnt⟩ := (Ring.wf_iff cap r).1 hr
  rw [Ring.push]
  split_ifs with hroom
  · exact (Ring.wf_iff ..).2 ⟨by rw [List.length_set, hmem], hrp, hroom⟩
  · exact hr

/-- A `PUSH` with room writes the slot behind the last byte, which is the slot of none of them. -/
theorem Ring.toBuf_push (hr : r.wf cap = true) (hroom : r.cnt < cap) (b : Byte) :
    (r.push cap b).toBuf cap = (r.toBuf cap).append b := by
  obtain ⟨hmem, hrp, -⟩ := (Ring.wf_iff cap r).1 hr
  have hslot : r.slot cap r.cnt < r.mem.length := by
    rw [hmem]
    exact Nat.mod_lt _ (Nat.zero_lt_of_lt hrp)
  rw [Ring.push, if_pos hroom, Ring.toBuf, List.range_succ, List.map_append, Memory.append, Ring.toBuf]
  congr 1
  · refine List.map_congr_left fun i hi => ?_
    have hne : r.slot cap r.cnt ≠ r.slot cap i := (r.slot_ne (List.mem_range.1 hi) hroom).symm
    rw [List.getD_eq_getElem?_getD, List.getD_eq_getElem?_getD]
    exact congrArg (Option.getD · 0) (List.getElem?_set_ne hne)
  · rw [List.map_singleton, List.getD_eq_getElem?_getD]
    exact congrArg (fun x => [Option.getD x 0]) (List.getElem?_set_self hslot)

/-! ## A cursor advance -/

theorem Ring.advance_wf (hr : r.wf cap = true) (n : Nat) : (r.advance cap n).wf cap = true := by
  obtain ⟨hmem, hrp, hcnt⟩ := (Ring.wf_iff cap r).1 hr
  exact (Ring.wf_iff ..).2 ⟨hmem, Nat.mod_lt _ (Nat.zero_lt_of_lt hrp), (Nat.sub_le ..).trans hcnt⟩

/-- A cursor advance drops, its bytes being read `n` slots further on. -/
theorem Ring.toBuf_advance (cap n : Nat) (r : Ring) : (r.advance cap n).toBuf cap = (r.toBuf cap).advance n := by
  refine List.ext_getElem ?length fun i _ _ => ?byte
  case length => rw [Ring.toBuf_length, Memory.advance, List.length_drop, Ring.toBuf_length, Ring.advance]
  case byte =>
    simp only [Ring.toBuf, Memory.advance, List.getElem_map, List.getElem_range, List.getElem_drop, Ring.slot_advance]
    rfl

/-! ## The scan -/

/-- A ring that is not empty holds the byte at its cursor and what is left after an advance by one. -/
theorem Ring.toBuf_eq_cons (h : r.cnt ≠ 0) :
    r.toBuf cap = r.mem.getD (r.slot cap 0) 0 :: (r.advance cap 1).toBuf cap := by
  have hpos : 0 < (r.toBuf cap).length := by
    rw [Ring.toBuf_length]
    exact Nat.pos_of_ne_zero h
  have hhead : (r.toBuf cap)[0] = r.mem.getD (r.slot cap 0) 0 := by
    simp only [Ring.toBuf, List.getElem_map, List.getElem_range]
  rw [Ring.toBuf_advance, Memory.advance, ← hhead, ← List.drop_eq_getElem_cons hpos, List.drop_zero]

theorem Ring.toBuf_of_cnt_eq_zero (h : r.cnt = 0) : r.toBuf cap = [] := by
  rw [Ring.toBuf, h, List.range_zero, List.map_nil]

/-- With fuel for every byte it holds, the ring's scan is the buffer's scan (R121). -/
theorem Ring.scan_spec {fuel : Nat} (hr : r.wf cap = true) (hfuel : r.cnt ≤ fuel) :
    (r.scan cap start fuel).wf cap = true ∧ (r.scan cap start fuel).toBuf cap = Memory.scan start (r.toBuf cap) := by
  induction fuel generalizing r with
  | zero =>
    rw [Ring.scan, Ring.toBuf_of_cnt_eq_zero (Nat.le_zero.1 hfuel)]
    exact ⟨hr, rfl⟩
  | succ fuel ih =>
    rw [Ring.scan]
    split_ifs with hcnt hstart
    · rw [Ring.toBuf_of_cnt_eq_zero hcnt]
      exact ⟨hr, rfl⟩
    · rw [Ring.toBuf_eq_cons hcnt, hstart, Memory.scan_start]
      exact ⟨hr, rfl⟩
    · rw [Ring.toBuf_eq_cons hcnt, Memory.scan, if_neg hstart]
      exact ih (Ring.advance_wf hr 1) (Nat.sub_le_of_le_add hfuel)

/-- Settles O54: operation by operation. -/
theorem ringRefinesTheBuffer : Obligations.RingRefinesTheBuffer := by
  intro cap r hr
  obtain ⟨hmem, hrp, -⟩ := (Ring.wf_iff cap r).1 hr
  refine ⟨Ring.toBuf_length cap r, fun b hroom => ⟨Ring.push_wf hr b, Ring.toBuf_push hr hroom b⟩, fun b hfull => ?full,
    fun n _ => ⟨Ring.advance_wf hr n, Ring.toBuf_advance cap n r⟩, fun start => Ring.scan_spec hr le_rfl, ?reset⟩
  case full => exact if_neg hfull.not_lt
  case reset => exact ⟨(Ring.wf_iff ..).2 ⟨hmem, Nat.zero_lt_of_lt hrp, Nat.zero_le cap⟩, rfl⟩

end Sys2Proof.Machine
end
